-- ==== Sys2Proof/Word.lean ====
section
/-! DEFINITION. The word types of the PDC: 32-bit registers (10_state.md R20), 8-bit bytes (R46) and the
16-bit samples of the Bayer path (00_scope.md R7, SAMPLE_W). -/

namespace Sys2Proof

/-- The value of one register, 32 bits (R20). -/
abbrev Word := BitVec 32

/-- One byte of the source or destination space (R46); also one output sample (R7, OUT_W). -/
abbrev Byte := BitVec 8

/-- One left-justified Bayer sample or one demosaicker output sample (R7, SAMPLE_W; R201, R220). -/
abbrev Sample := BitVec 16

end Sys2Proof
end

