-- ==== Sys2Proof/Syntax.lean ====
section
/-! DEFINITION. The command set as syntax: one constructor for each row of spec/opcode_table.json
(30_encoding.md R95), with the operand fields its word carries (R91, R93). -/

namespace Sys2Proof

/-- The two registers whose written words are commands (R95): FORMAT for rows 1 to 11, CTRL for START. -/
inductive CmdReg where
  | format
  | ctrl
deriving DecidableEq, Repr

/-- A character of the mosaic pattern (R93); `x` is any character that is not R, G or B. -/
inductive PatChar where
  | r
  | g
  | b
  | x
deriving DecidableEq, Repr

/-- The four characters PAT(0) to PAT(3) of the PATTERN field, in row-major order of the 2×2 cell (R93, R202). -/
structure Pattern where
  c0 : PatChar
  c1 : PatChar
  c2 : PatChar
  c3 : PatChar
deriving DecidableEq, Repr

/-- One command (R95). -/
inductive Instr where
  /-- DEC.YUV422, row 1 (R155). -/
  | decYuv422
  /-- DEC.RGB24, row 2 (R170). -/
  | decRgb24
  /-- DEC.BGR24, row 3 (R171). -/
  | decBgr24
  /-- DEC.ARGB32, row 4 (R172). -/
  | decArgb32
  /-- DEC.XRGB32, row 5 (R173). -/
  | decXrgb32
  /-- DEC.MJPEG, row 6 (R190). -/
  | decMjpeg
  /-- DEC.BAYER8, row 7 (R206), with its PATTERN field. -/
  | decBayer8 (pat : Pattern)
  /-- DEC.BAYER10, row 8 (R207), with its PATTERN field. -/
  | decBayer10 (pat : Pattern)
  /-- DEC.BAYER12, row 9 (R208), with its PATTERN field. -/
  | decBayer12 (pat : Pattern)
  /-- DEC.BAYER.BADBPS, row 10 (R209), with its BPS and PATTERN fields. -/
  | decBayerBadBps (bps : BitVec 8) (pat : Pattern)
  /-- DEC.UNRECOGNISED, row 11 (R122), with the whole FORMAT word. -/
  | decUnrecognised (tag : Word)
  /-- START, the CTRL row (R250), with the ignored bits 31:1 of the written word (R28). -/
  | start (ignored : BitVec 31)
deriving DecidableEq, Repr

/-- The register whose word encodes the command (R95). -/
def Instr.cmdReg : Instr → CmdReg
  | .decYuv422 => .format
  | .decRgb24 => .format
  | .decBgr24 => .format
  | .decArgb32 => .format
  | .decXrgb32 => .format
  | .decMjpeg => .format
  | .decBayer8 _ => .format
  | .decBayer10 _ => .format
  | .decBayer12 _ => .format
  | .decBayerBadBps _ _ => .format
  | .decUnrecognised _ => .format
  | .start _ => .ctrl

end Sys2Proof
end

