-- ==== Sys2Proof/Decode.lean ====
section
/-! DEFINITION. The decoder and the encoder of the PDC's command words (30_encoding.md R90 to R99): FORMAT words by the
ordered match/mask table of R95, CTRL words by R28 and R250, and the little-endian bytes of a register word (R62). -/

namespace Sys2Proof

/-! ### Fields -/

/-- FAMILY, FORMAT bits 3:0 (R91). -/
def familyOf (tag : Word) : BitVec 4 := tag.extractLsb' 0 4

/-- BPS, FORMAT bits 15:8 (R91). -/
def bpsOf (tag : Word) : BitVec 8 := tag.extractLsb' 8 8

/-- The character a 2-bit code stands for (R93). -/
def patCharOfCode (code : BitVec 2) : PatChar :=
  match code.toNat with
  | 0 => .r
  | 1 => .g
  | 2 => .b
  | _ => .x

/-- The 2-bit code of a character (R93). -/
def codeOfPatChar : PatChar → BitVec 2
  | .r => 0
  | .g => 1
  | .b => 2
  | .x => 3

/-- PAT(k) = FORMAT[17 + 2k : 16 + 2k] for k = 0 to 3 (R93). -/
def patternOf (tag : Word) : Pattern where
  c0 := patCharOfCode (tag.extractLsb' 16 2)
  c1 := patCharOfCode (tag.extractLsb' 18 2)
  c2 := patCharOfCode (tag.extractLsb' 20 2)
  c3 := patCharOfCode (tag.extractLsb' 22 2)

/-- The PATTERN byte of four characters, PAT(0) in its lowest two bits (R93). -/
def patternByte (pat : Pattern) : BitVec 8 :=
  codeOfPatChar pat.c3 ++ codeOfPatChar pat.c2 ++ codeOfPatChar pat.c1 ++ codeOfPatChar pat.c0

/-! ### The command table -/

/-- One FORMAT row of R95: the test (FORMAT and mask) = value, and the command it selects. -/
structure FormatRow where
  value : Word
  mask : Word
  build : Word → Instr

/-- The row's test holds of a FORMAT value (R95). -/
def FormatRow.hits (row : FormatRow) (tag : Word) : Bool := tag &&& row.mask == row.value

/-- Rows 1 to 10 of R95 in the order they are tested; row 11, whose test always holds, is
`selectRow`'s last case. -/
def formatRows : List FormatRow :=
  [ ⟨0x00000001#32, 0xFFFFFFFF#32, fun _ => .decYuv422⟩,
    ⟨0x00000002#32, 0xFFFFFFFF#32, fun _ => .decRgb24⟩,
    ⟨0x00000003#32, 0xFFFFFFFF#32, fun _ => .decBgr24⟩,
    ⟨0x00000004#32, 0xFFFFFFFF#32, fun _ => .decArgb32⟩,
    ⟨0x00000005#32, 0xFFFFFFFF#32, fun _ => .decXrgb32⟩,
    ⟨0x00000006#32, 0xFFFFFFFF#32, fun _ => .decMjpeg⟩,
    ⟨0x00000807#32, 0xFF00FFFF#32, fun tag => .decBayer8 (patternOf tag)⟩,
    ⟨0x00000A07#32, 0xFF00FFFF#32, fun tag => .decBayer10 (patternOf tag)⟩,
    ⟨0x00000C07#32, 0xFF00FFFF#32, fun tag => .decBayer12 (patternOf tag)⟩,
    ⟨0x00000007#32, 0xFF0000FF#32, fun tag => .decBayerBadBps (bpsOf tag) (patternOf tag)⟩ ]

/-- The rows tested in the order given; when no earlier row's test holds, row 11 is selected (R95). -/
def selectRow (rows : List FormatRow) (tag : Word) : Instr :=
  match rows with
  | [] => .decUnrecognised tag
  | row :: later => if row.hits tag then row.build tag else selectRow later tag

/-- The command a FORMAT value selects (R95), total over all 2^32 values (R97). -/
def decodeFormat (tag : Word) : Instr := selectRow formatRows tag

/-! ### Words and bytes -/

/-- Why bytes given to the decoder are no command. -/
inductive Reject where
  /-- Not the four bytes of one register word: register accesses are whole words (20_memory.md R62, R64). -/
  | notOneWord
  /-- A word written to CTRL with bit 0 clear: it starts nothing (R28, R250). -/
  | startBitClear
deriving DecidableEq, Repr

/-- The command a word written to CTRL is: START when bit 0 is 1, bits 31:1 ignored (R28, R98, R250). -/
def decodeCtrl (data : Word) : Except Reject Instr :=
  if data.getLsbD 0 then .ok (.start (data.extractLsb' 1 31)) else .error .startBitClear

/-- The command a word is in one of the two command registers (R95). -/
def decodeWord (reg : CmdReg) (word : Word) : Except Reject Instr :=
  match reg with
  | .format => .ok (decodeFormat word)
  | .ctrl => decodeCtrl word

/-- The four bytes of a register word, lowest address first (R62). -/
def bytesOfWord (w : Word) : List Byte :=
  [w.extractLsb' 0 8, w.extractLsb' 8 8, w.extractLsb' 16 8, w.extractLsb' 24 8]

/-- The command that bytes, lowest address first, are in a command register: total, rejecting by name. -/
def decode (reg : CmdReg) (bytes : List Byte) : Except Reject Instr :=
  match bytes with
  | [b0, b1, b2, b3] => decodeWord reg (b3 ++ b2 ++ b1 ++ b0)
  | _ => .error .notOneWord

/-! ### The encoder -/

/-- The tag of a Bayer format: 0x07 + (bps << 8) + (PATTERN << 16) (R91, R102). -/
def bayerTag (bps : BitVec 8) (pat : Pattern) : Word := 0#8 ++ patternByte pat ++ bps ++ 0x07#8

/-- The word of a command (R95). -/
def encodeWord : Instr → Word
  | .decYuv422 => 0x00000001#32
  | .decRgb24 => 0x00000002#32
  | .decBgr24 => 0x00000003#32
  | .decArgb32 => 0x00000004#32
  | .decXrgb32 => 0x00000005#32
  | .decMjpeg => 0x00000006#32
  | .decBayer8 pat => bayerTag 8 pat
  | .decBayer10 pat => bayerTag 10 pat
  | .decBayer12 pat => bayerTag 12 pat
  | .decBayerBadBps bps pat => bayerTag bps pat
  | .decUnrecognised tag => tag
  | .start ignored => ignored ++ 1#1

/-- The bytes of a command's word, lowest address first (R62). -/
def encode (i : Instr) : List Byte := bytesOfWord (encodeWord i)

/-! ### The host's view of the table -/

/-- The register a table row belongs to, by the row's width: the CTRL row gives one bit, every FORMAT row all 32
(notes/assumptions/12.md). -/
def tableReg (nbits : Nat) : CmdReg := if nbits ≤ 8 then .ctrl else .format

/-- The command the decoder reads from a table row's word `w` of `nbits` bits. -/
def decodeTableWord (nbits w : Nat) : Option Instr :=
  (decode (tableReg nbits) (bytesOfWord (BitVec.ofNat 32 w))).toOption

end Sys2Proof
end

