-- ==== Sys2Proof/Machine/BayerPattern.lean ====
section
/-! DEFINITION. The pattern search of the Bayer commands (44_bayer_unpack.md R202, R203). -/

namespace Sys2Proof.Machine

/-- The document's BayerCellOffset: (column-phase, row-phase) (00_scope.md R14). -/
structure CellOffset where
  col : Fin 2
  row : Fin 2
deriving DecidableEq, Repr

/-- The four offsets the demosaicker takes (45_demosaic.md R220). -/
structure BayerOffsets where
  red : CellOffset
  green0 : CellOffset
  green1 : CellOffset
  blue : CellOffset
deriving DecidableEq, Repr

/-- PAT(k) (R93); the cell index k is 0 to 3 (R14). -/
def patternAt (pat : Pattern) (k : Nat) : PatChar :=
  match k with
  | 0 => pat.c0
  | 1 => pat.c1
  | 2 => pat.c2
  | _ => pat.c3

/-- The least k in lo..3 with PAT(k) = c, or absent (R203). -/
def leastIndex (pat : Pattern) (c : PatChar) (lo : Nat) : Option Nat :=
  (List.range 4).find? fun k => lo ≤ k && patternAt pat k == c

/-- (index mod 2, index div 2), column phase first (R99, R203). -/
def cellOffset (k : Nat) : CellOffset := { col := Fin.ofNat 2 k, row := Fin.ofNat 2 (k / 2) }

/-- The pattern search: the offsets of R, first G, second G and B, or nothing when one is absent (R203). -/
def patternSearch (pat : Pattern) : Option BayerOffsets := do
  let iR ← leastIndex pat .r 0
  let iG0 ← leastIndex pat .g 0
  let iG1 ← leastIndex pat .g (iG0 + 1)
  let iB ← leastIndex pat .b 0
  return { red := cellOffset iR, green0 := cellOffset iG0, green1 := cellOffset iG1, blue := cellOffset iB }

end Sys2Proof.Machine
end

