-- ==== Sys2Proof/Config.lean ====
section
/-! DEFINITION. What an implementation fixes (the named parameters of 00_scope.md R7 as a type; their values
stand in Machine/Parameters.lean) and the free values of what the spec leaves without a value. -/

namespace Sys2Proof.Config

/-- One row of the colour-transform table: the coefficients of Y, U and V and the offset, all scaled (R45, R152). -/
structure CscRow where
  y : Int
  u : Int
  v : Int
  offset : Int
deriving DecidableEq, Repr

/-- The coefficient table CSC_COEF with its denominator CSC_SCALE (R7, R45). -/
structure CscTable where
  scale : Nat
  red : CscRow
  green : CscRow
  blue : CscRow
deriving DecidableEq, Repr

/-- ARGB_DROP: which element of the reversed 4-byte group the 32-bit decoders drop, number 0 or number 3 (R7, R172). -/
inductive ArgbDrop where
  | element0
  | element3
deriving DecidableEq, Repr

/-- The parameters of one PDC that a rule reads (R7). No step changes them. -/
structure Params where
  /-- AW, the width of a byte address on the two ports. -/
  aw : Nat
  /-- CSC_SCALE and CSC_COEF. -/
  csc : CscTable
  /-- ARGB_DROP. -/
  argbDrop : ArgbDrop
deriving DecidableEq, Repr

/-- The parameter values R7 admits: 1 ≤ AW ≤ 32, and a denominator that is positive. -/
def Params.wf (p : Params) : Bool := 1 ≤ p.aw && p.aw ≤ 32 && 0 < p.csc.scale

/-- DESIGN CHOICE (notes/assumptions/5.md to 8.md): the free byte number `n` at address `a`, for every place where
93_implementation_defined.md says 'any value'. It has no body: nothing can be proved of a value of it. -/
opaque freeByte : Nat → Nat → Byte

end Sys2Proof.Config
end

