-- ==== Sys2Proof/Machine/Parameters.lean ====
section
/-! DEFINITION. The parameter values this spec fixes (00_scope.md R7; 41_yuv422_csc.md R152). -/

namespace Sys2Proof.Machine

/-- CSC_COEF as printed in R152, scaled by CSC_SCALE = 10^7. -/
def cscTable : Config.CscTable where
  scale := 10000000
  red := { y := 10000000, u := -72, v := 14020000, offset := -1794548000 }
  green := { y := 10000000, u := -3441000, v := -7141000, offset := 1354587000 }
  blue := { y := 10000000, u := 17720000, v := 154, offset := -2268183000 }

/-- AW = 32, the printed coefficients, ARGB_DROP = 0 (R7). -/
def parameters : Config.Params where
  aw := 32
  csc := cscTable
  argbDrop := .element0

end Sys2Proof.Machine
end

