-- ==== Sys2Proof/Machine/State.lean ====
section
/-! DEFINITION. The machine's state as plain data: the registers of 10_state.md R20, host memory, the parameters of R7,
and the model's own fields (INVENTORY.md, State); the state after reset (R50); the names of a fault and of a refusal. -/

namespace Sys2Proof.Machine

/-- Host memory (00_scope.md R17) as address and byte pairs in one canonical form, `Memory.wf`. -/
abbrev Memory := List Host.Cell

/-- One thing that happens to the block next: an access of the host or of another agent of the platform, the hardware
reset, or the block's own turn (notes/assumptions/3.md). A register is named by its word offset, R20's byte offset
divided by 4: an access is an aligned 32-bit word and nothing else can be written down (R64,
93_implementation_defined.md U6, U11). -/
inductive Input where
  /-- `WR reg, data` (30_encoding.md R101): a 32-bit write inside the register block. -/
  | regWrite (off : BitVec 4) (data : BitVec 32)
  /-- `RD reg` (R101): a 32-bit read inside the register block. -/
  | regRead (off : BitVec 4)
  /-- A byte written to host memory by the host or another agent (47_host_control.md R258; R305). -/
  | memWrite (addr : BitVec 32) (byte : BitVec 8)
  /-- A byte of host memory read by the host (R258). -/
  | memRead (addr : BitVec 32)
  /-- The hardware reset (70_reset_and_hazards.md R300, R301). -/
  | reset
  /-- The block's own turn: the command in flight, if there is one, runs to completion (R19, R313). -/
  | pdc
deriving DecidableEq, Repr

/-- The whole machine. -/
structure State where
  /-- FORMAT (R22). -/
  format : BitVec 32
  /-- WIDTH (R23). -/
  width : BitVec 32
  /-- HEIGHT (R23). -/
  height : BitVec 32
  /-- SRC_ADDR (R24). -/
  srcAddr : BitVec 32
  /-- SRC_LEN (R24). -/
  srcLen : BitVec 32
  /-- DST_ADDR (R25). -/
  dstAddr : BitVec 32
  /-- STATUS (R29). -/
  status : BitVec 32
  /-- ERROR (R31). -/
  error : BitVec 32
  /-- ERRINFO (R32). -/
  errinfo : BitVec 32
  /-- OUT_ADDR (R33). -/
  outAddr : BitVec 32
  /-- OUT_LEN (R33). -/
  outLen : BitVec 32
  /-- Host memory, reached through both ports (R17, R46; notes/assumptions/1.md). -/
  mem : Memory
  /-- The parameters of this PDC (R7); no step changes them (notes/assumptions/9.md). -/
  params : Config.Params
  /-- Model's own: what happens next, the head first (notes/assumptions/3.md). -/
  inputs : List Input
  /-- Model's own: the data the last bus read returned to the host. -/
  hostData : BitVec 32
  /-- Model's own: a byte of the source buffer was written while the command runs (U1, notes/assumptions/6.md). -/
  srcDisturbed : Bool
  /-- Model's own: how many free values were taken (notes/assumptions/5.md). -/
  freeCount : Nat
deriving DecidableEq, Repr

/-- Why the machine stops with a fault. -/
inductive Fault where
  /-- Raised by a host memory access at or above 2^AW, which names no byte of the source and destination spaces
  (R46). Safe: the run ends (notes/assumptions/15.md). -/
  | noSuchAddress
deriving DecidableEq, Repr

/-- Why the machine gives a run no meaning. -/
inductive Refusal where
  /-- Raised by no meaning: the mark of an instruction without one. Safe. -/
  | notModelled (mnemonic : String)
  /-- Raised by a memory write into the destination range of the command in flight, whose one treatment is 'refuse'
  (R307, U7). Safe: the run ends (notes/assumptions/7.md). -/
  | destinationWriteWhileBusy
deriving DecidableEq, Repr

/-- The machine right after reset: every register 0 (R50), the spec's parameters (R7), no command in flight and nothing
to do. The model's own fields' values are DESIGN CHOICE (notes/assumptions/13.md), as is memory with nothing listed
(notes/assumptions/2.md). -/
def State.reset : State where
  format := 0
  width := 0
  height := 0
  srcAddr := 0
  srcLen := 0
  dstAddr := 0
  status := 0
  error := 0
  errinfo := 0
  outAddr := 0
  outLen := 0
  mem := []
  params := parameters
  inputs := []
  hostData := 0
  srcDisturbed := false
  freeCount := 0

end Sys2Proof.Machine
end

