-- ==== Sys2Proof/Machine/Flags.lean ====
section
/-! DEFINITION. The flags: the fields of STATUS (10_state.md R29, R30), the result kinds (R29) and the error codes
(R31, 60_exceptions.md R270). -/

namespace Sys2Proof.Machine

/-- STATUS.KIND: which outcome the completed command had (R29). -/
inductive ResultKind where
  | none
  | rgb
  | compressed
  | failed
deriving DecidableEq, Repr

/-- The error kinds (R270). -/
inductive ErrorKind where
  | unsupportedFormat
  | unsupportedBitDepth
  | malformedMosaicPattern
  | geometryMismatch
deriving DecidableEq, Repr

/-- The value of the KIND field (R29). -/
def kindCode : ResultKind → BitVec 2
  | .none => 0
  | .rgb => 1
  | .compressed => 2
  | .failed => 3

/-- The value of ERROR for an error kind: CODE in bits 3:0, bits 31:4 zero (R31). -/
def errorWord : ErrorKind → Word
  | .unsupportedFormat => 1
  | .unsupportedBitDepth => 2
  | .malformedMosaicPattern => 3
  | .geometryMismatch => 4

/-- STATUS from its fields; bits 3 and 31:6 are reserved and read 0 (R29). -/
def statusWord (busy done err : Bool) (kind : ResultKind) : Word :=
  0#26 ++ kindCode kind ++ 0#1 ++ BitVec.ofBool err ++ BitVec.ofBool done ++ BitVec.ofBool busy

/-- STATUS while a command is in flight: BUSY = 1 and nothing else (R250). -/
def statusBusy : Word := statusWord true false false .none

/-- STATUS of a completed command: BUSY = 0, DONE = 1, ERR exactly when it failed (R253). -/
def statusDone (kind : ResultKind) : Word := statusWord false true (kind == .failed) kind

/-- STATUS.BUSY, bit 0 (R29). -/
def State.busy (s : State) : Bool := s.status.getLsbD 0

/-- STATUS.DONE, bit 1 (R29). -/
def State.done (s : State) : Bool := s.status.getLsbD 1

/-- STATUS.ERR, bit 2 (R29). -/
def State.err (s : State) : Bool := s.status.getLsbD 2

/-- STATUS.KIND, bits 5:4 (R29). -/
def State.kind (s : State) : BitVec 2 := s.status.extractLsb' 4 2

end Sys2Proof.Machine
end

