-- ==== Sys2Proof/Machine/Ops.lean ====
section
/-! DEFINITION. The shared operations: bytes of host memory, the register block as the host sees it, the beginning and the
end of a command, and the one operation by which every command fails (60_exceptions.md R276). -/

namespace Sys2Proof.Machine

/-! ### Host memory -/

/-- DESIGN CHOICE (notes/assumptions/2.md): what a byte of memory that nothing has written reads as. The spec says only
that memory after reset is 'whatever the host's memory holds' (R50). -/
def unlistedByte : Byte := 0

/-- MemRead(addr, 1) of one byte (R11, R65). -/
def Memory.read (m : Memory) (a : Nat) : Byte :=
  match m with
  | [] => unlistedByte
  | (b, v) :: rest => if a = b then v else Memory.read rest a

/-- MemWrite(addr, 1, v) of one byte (R11, R65), keeping the canonical form. -/
def Memory.write (m : Memory) (a : Nat) (v : Byte) : Memory :=
  match m with
  | [] => if v = unlistedByte then [] else [(a, v)]
  | (b, w) :: rest =>
    if a < b then (if v = unlistedByte then (b, w) :: rest else (a, v) :: (b, w) :: rest)
    else if a = b then (if v = unlistedByte then rest else (a, v) :: rest)
    else (b, w) :: Memory.write rest a v

/-- The canonical form: addresses strictly rising, and no entry equal to what an unlisted address reads as. -/
def Memory.wf : Memory → Bool
  | [] => true
  | (a, v) :: rest => v != unlistedByte && rest.all (fun c => a < c.1) && Memory.wf rest

/-- Every listed address is below `bound`. -/
def Memory.below (m : Memory) (bound : Nat) : Bool := m.all (fun c => c.1 < bound)

/-- Bytes written at rising addresses from `a` on. -/
def Memory.writeBytes (m : Memory) (a : Nat) (bytes : List Byte) : Memory :=
  match bytes with
  | [] => m
  | v :: rest => Memory.writeBytes (Memory.write m a v) (a + 1) rest

/-- 'Any value' for `len` bytes from `a` on: the free bytes number `n` (93_implementation_defined.md, treatment
'any value'). -/
def Memory.writeFree (m : Memory) (a len n : Nat) : Memory :=
  Memory.writeBytes m a ((List.range len).map fun k => Config.freeByte n (a + k))

/-! ### The register block as the host sees it -/

/-- The word offset of CTRL: byte offset 0x18 (R20). -/
def ctrlOffset : BitVec 4 := 6

/-- `RD`: the value at a word offset (R20). CTRL reads 0 (R28); offsets 0x30 to 0x3C hold no register and read 0 (R21). -/
def State.regRead (s : State) (off : BitVec 4) : Word :=
  match off.toNat with
  | 0 => s.format
  | 1 => s.width
  | 2 => s.height
  | 3 => s.srcAddr
  | 4 => s.srcLen
  | 5 => s.dstAddr
  | 7 => s.status
  | 8 => s.error
  | 9 => s.errinfo
  | 10 => s.outAddr
  | 11 => s.outLen
  | _ => 0

/-- `WR` of anything but a START: an operand register takes the value unless a command runs (R26); writes to the
status registers, to CTRL and to offsets without a register are ignored (R20, R21, R28). -/
def State.regWrite (s : State) (off : BitVec 4) (data : Word) : State :=
  if s.busy then s
  else
    match off.toNat with
    | 0 => { s with format := data }
    | 1 => { s with width := data }
    | 2 => { s with height := data }
    | 3 => { s with srcAddr := data }
    | 4 => { s with srcLen := data }
    | 5 => { s with dstAddr := data }
    | _ => s

/-! ### How a command begins and ends -/

/-- The five status registers written together, as they are at START and at completion only (R34); the command's
disturbance mark goes with them. -/
def State.setStatus (s : State) (status error errinfo outAddr outLen : Word) : State :=
  { s with
    status := status, error := error, errinfo := errinfo, outAddr := outAddr, outLen := outLen,
    srcDisturbed := false }

/-- An accepted START: BUSY set, everything else cleared (R250). The operands captured are the operand registers, which
cannot change while BUSY = 1 (R251, R26). -/
def State.beginCommand (s : State) : State := s.setStatus statusBusy 0 0 0 0

/-- Completion with a result buffer at `addr` of `len` bytes (R253). -/
def State.complete (s : State) (kind : ResultKind) (addr len : Word) : State :=
  s.setStatus (statusDone kind) 0 0 addr len

/-- `raise <Kind>(info)`: the PDC's one way of taking an exception (R12, R276). The command is over; control goes
nowhere, no handler exists and nothing is returned from: the next START begins the next command (R278). -/
def State.raise (s : State) (kind : ErrorKind) (info : Word) : State :=
  s.setStatus (statusDone .failed) (errorWord kind) info 0 0

end Sys2Proof.Machine
end

