-- ==== Sys2Proof/Machine/Operands.lean ====
section
/-! DEFINITION. What a command computes from its operand registers: geometry and lengths (40_dispatch_geometry.md R123),
the geometry check (R124), the source bytes (00_scope.md R11, 20_memory.md R60), and the two ranges of the command
(10_state.md R46, 70_reset_and_hazards.md R306). -/

namespace Sys2Proof.Machine

/-- W (R10). -/
def State.w (s : State) : Nat := s.width.toNat

/-- H (R10). -/
def State.h (s : State) : Nat := s.height.toNat

/-- Src(i) = MemRead(SRC_ADDR + i, 1) (R11). -/
def State.src (s : State) (i : Nat) : Byte := Memory.read s.mem (s.srcAddr.toNat + i)

/-- Src16(i) = Src(2i) + 256 × Src(2i + 1): the i-th little-endian word of the source buffer (R11, R60). -/
def State.src16 (s : State) (i : Nat) : Nat := (s.src (2 * i)).toNat + 256 * (s.src (2 * i + 1)).toNat

/-- BPP, source bytes per pixel, of the commands that reach the geometry check (R123). -/
def bytesPerPixel : Instr → Option Nat
  | .decYuv422 => some 2
  | .decRgb24 => some 3
  | .decBgr24 => some 3
  | .decArgb32 => some 4
  | .decXrgb32 => some 4
  | .decMjpeg => none
  | .decBayer8 _ => some 1
  | .decBayer10 _ => some 2
  | .decBayer12 _ => some 2
  | .decBayerBadBps _ _ => none
  | .decUnrecognised _ => none
  | .start _ => none

/-- EXP_LEN, the expected source length, in unbounded integers (R123). -/
def expectedLength (i : Instr) (s : State) : Nat := (bytesPerPixel i).getD 0 * s.w * s.h

/-- OUT_LEN = 3 × W × H, in unbounded integers (R123). -/
def State.rasterLength (s : State) : Nat := 3 * s.w * s.h

/-- The command needs an even width (R124 (b)). -/
def needsEvenWidth : Instr → Bool
  | .decYuv422 => true
  | .decRgb24 => false
  | .decBgr24 => false
  | .decArgb32 => false
  | .decXrgb32 => false
  | .decMjpeg => false
  | .decBayer8 _ => false
  | .decBayer10 _ => false
  | .decBayer12 _ => false
  | .decBayerBadBps _ _ => false
  | .decUnrecognised _ => false
  | .start _ => false

/-- The geometry check fails: conditions (a) to (e) of R124, in its order. -/
def geometryFails (i : Instr) (s : State) : Bool :=
  (s.w = 0 || s.h = 0)
    || (needsEvenWidth i && s.w % 2 = 1)
    || s.srcLen.toNat ≠ expectedLength i s
    || s.srcAddr.toNat + s.srcLen.toNat > 2 ^ s.params.aw
    || s.dstAddr.toNat + s.rasterLength > 2 ^ s.params.aw

/-- The pattern of a Bayer command passes the search (R120 step 5); no other command has one. -/
def patternOk : Instr → Bool
  | .decYuv422 => true
  | .decRgb24 => true
  | .decBgr24 => true
  | .decArgb32 => true
  | .decXrgb32 => true
  | .decMjpeg => true
  | .decBayer8 pat => (patternSearch pat).isSome
  | .decBayer10 pat => (patternSearch pat).isSome
  | .decBayer12 pat => (patternSearch pat).isSome
  | .decBayerBadBps _ _ => true
  | .decUnrecognised _ => true
  | .start _ => true

/-- The command the FORMAT register selects (R95, R120 step 1). -/
def State.command (s : State) : Instr := decodeFormat s.format

/-- The command selected by FORMAT passes steps 2 to 6 of R120 and so reaches memory. -/
def State.producesRaster (s : State) : Bool :=
  (bytesPerPixel s.command).isSome && patternOk s.command && !geometryFails s.command s

/-- The length of the destination range of the command selected by FORMAT: nothing for a command that fails or
passes through (R67, R277). -/
def State.destinationLength (s : State) : Nat := if s.producesRaster then s.rasterLength else 0

/-- The address is in the destination range of the command selected by FORMAT (R46, R307). -/
def State.inDestination (s : State) (a : Nat) : Bool :=
  s.dstAddr.toNat ≤ a && a < s.dstAddr.toNat + s.destinationLength

/-- The address is in the source buffer (R46, R305). -/
def State.inSource (s : State) (a : Nat) : Bool :=
  s.srcAddr.toNat ≤ a && a < s.srcAddr.toNat + s.srcLen.toNat

/-- The source buffer and the raster's destination range share a byte (R306). -/
def State.rangesOverlap (s : State) : Bool :=
  s.srcAddr.toNat < s.dstAddr.toNat + s.rasterLength && s.dstAddr.toNat < s.srcAddr.toNat + s.srcLen.toNat

end Sys2Proof.Machine
end

