-- ==== Sys2Proof/Machine/Raster.lean ====
section
/-! DEFINITION. The end of every raster-producing command: steps 6 to 9 of 40_dispatch_geometry.md R120, with the
destination layout of R129. -/

namespace Sys2Proof.Machine

/-- A channel of the raster (00_scope.md R13). -/
inductive Channel where
  | red
  | green
  | blue
deriving DecidableEq, Repr

/-- The channel index c: 0 red, 1 green, 2 blue (R13). -/
def Channel.index : Channel → Nat
  | .red => 0
  | .green => 1
  | .blue => 2

/-- The channel of an index (R13). -/
def channelOf (c : Nat) : Channel :=
  match c with
  | 0 => .red
  | 1 => .green
  | _ => .blue

/-- The raster's bytes in destination order: offset j = 3 × (y × W + x) + c holds Out[y][x][c] (R129). -/
def rasterBytes (w h : Nat) (out : Nat → Nat → Channel → Byte) : List Byte :=
  (List.range (3 * w * h)).map fun j => out (j / 3 / w) (j / 3 % w) (channelOf (j % 3))

/-- Step 8: the destination bytes. Where the host broke its duty the bytes are 'any value': the union of both ranges when
they overlap (R306, 93_implementation_defined.md U2), the destination range when the source changed (R305, U1). -/
def State.storeRaster (s : State) (out : Nat → Nat → Channel → Byte) : State :=
  if s.rangesOverlap then
    { s with
      mem := Memory.writeFree (Memory.writeFree s.mem s.srcAddr.toNat s.srcLen.toNat s.freeCount)
        s.dstAddr.toNat s.rasterLength s.freeCount,
      freeCount := s.freeCount + 1 }
  else if s.srcDisturbed then
    { s with
      mem := Memory.writeFree s.mem s.dstAddr.toNat s.rasterLength s.freeCount,
      freeCount := s.freeCount + 1 }
  else { s with mem := Memory.writeBytes s.mem s.dstAddr.toNat (rasterBytes s.w s.h out) }

/-- Steps 8 and 9: the raster stored and the command complete with KIND = RGB (R120, R253). -/
def State.completeRaster (s : State) (out : Nat → Nat → Channel → Byte) : State :=
  (s.storeRaster out).complete .rgb s.dstAddr (BitVec.ofNat 32 s.rasterLength)

/-- Steps 6 to 9 of R120 for the raster command `i` whose output samples are `out`. -/
def rasterCommand (i : Instr) (out : Nat → Nat → Channel → Byte) (s : State) : Host.Outcome State Fault Refusal :=
  if geometryFails i s then .next (s.raise .geometryMismatch s.format) else .next (s.completeRaster out)

end Sys2Proof.Machine
end

