-- ==== Sys2Proof/Machine/Demosaic.lean ====
section
/-! DEFINITION. The BD sub-block: the function Demosaic (45_demosaic.md). It is a pure function of a sample plane, its
height and width and four offsets (R220); any four offsets are accepted (R234). -/

namespace Sys2Proof.Machine

/-- Pop(c), the populated offsets of a channel (R221). -/
def populatedOffsets (o : BayerOffsets) : Channel → List CellOffset
  | .red => [o.red]
  | .green => [o.green0, o.green1]
  | .blue => [o.blue]

/-- (y, x) is populated for c: (x mod 2, y mod 2) is a member of Pop(c) (R221). Membership counts a doubled offset
once (R234). -/
def populated (o : BayerOffsets) (c : Channel) (y x : Nat) : Bool :=
  (populatedOffsets o c).any fun f => x % 2 == f.col.val && y % 2 == f.row.val

/-- (y, x) lies in the frame of h rows and w columns. -/
def inFrame (h w : Nat) (y x : Int) : Bool := 0 ≤ y && y < h && 0 ≤ x && x < w

/-- V[y][x][c], the sparse volume with its zero padding (R222, R224). -/
def sparse (plane : Nat → Nat → Sample) (h w : Nat) (o : BayerOffsets) (c : Channel) (y x : Int) : Nat :=
  if inFrame h w y x && populated o c y.toNat x.toNat then (plane y.toNat x.toNat).toNat else 0

/-- M[y][x][c], the presence mask with its zero padding (R223, R224). -/
def presence (h w : Nat) (o : BayerOffsets) (c : Channel) (y x : Int) : Nat :=
  if inFrame h w y x && populated o c y.toNat x.toNat then 1 else 0

/-- The nine positions of the 3×3 window centred on (y, x) (R225). -/
def window (y x : Nat) : List (Int × Int) :=
  [-1, 0, 1].flatMap fun dy => [-1, 0, 1].map fun dx => ((y : Int) + dy, (x : Int) + dx)

/-- S[y][x][c], exact (R225). -/
def windowSum (plane : Nat → Nat → Sample) (h w : Nat) (o : BayerOffsets) (c : Channel) (y x : Nat) : Nat :=
  ((window y x).map fun q => sparse plane h w o c q.1 q.2).sum

/-- N[y][x][c], exact (R225). -/
def windowCount (h w : Nat) (o : BayerOffsets) (c : Channel) (y x : Nat) : Nat :=
  ((window y x).map fun q => presence h w o c q.1 q.2).sum

/-- D[y][x][c]: the floor of the mean, 0 when no sample is populated (R226). -/
def demosaic (plane : Nat → Nat → Sample) (h w : Nat) (o : BayerOffsets) (y x : Nat) (c : Channel) : Sample :=
  if windowCount h w o c y x = 0 then 0
  else BitVec.ofNat 16 (windowSum plane h w o c y x / windowCount h w o c y x)

end Sys2Proof.Machine
end

