-- ==== Sys2Proof/Machine/Bayer.lean ====
section
/-! DEFINITION. The raw Bayer commands (44_bayer_unpack.md): unpacking, normalisation, narrowing. -/

namespace Sys2Proof.Machine

/-- P[y][x] = (raw(y × W + x) << (16 − BPS)) mod 65536 (R201). -/
def samplePlane (bps w : Nat) (raw : Nat → Nat) (y x : Nat) : Sample :=
  BitVec.ofNat 16 (raw (y * w + x) <<< (16 - bps))

/-- Out = (D >> 8) mod 256: the low 8 bits are dropped without rounding (R204). -/
def narrow (d : Sample) : Byte := BitVec.ofNat 8 (d.toNat >>> 8)

/-- raw(q) for BPS = 8: the byte at offset q (R200). -/
def State.raw8 (s : State) (q : Nat) : Nat := (s.src q).toNat

/-- raw(q) for BPS = 10 and 12: the little-endian word at offsets 2q, 2q + 1 (R200). -/
def State.raw16 (s : State) (q : Nat) : Nat := s.src16 q

/-- The output sample of a Bayer command (R204, R206). -/
def State.bayerSample (s : State) (bps : Nat) (raw : Nat → Nat) (o : BayerOffsets) (y x : Nat) (c : Channel) : Byte :=
  narrow (demosaic (samplePlane bps s.w raw) s.h s.w o y x c)

/-- Steps 5 to 9 of R120 for a Bayer command: the pattern search first, then the geometry check (R206). -/
def bayerCommand (i : Instr) (pat : Pattern) (bps : Nat) (raw : Nat → Nat) (s : State) :
    Host.Outcome State Fault Refusal :=
  match patternSearch pat with
  | none => .next (s.raise .malformedMosaicPattern s.format)
  | some o => rasterCommand i (s.bayerSample bps raw o) s

/-- DEC.BAYER8 (R206). -/
def execDecBayer8 (pat : Pattern) (s : State) : Host.Outcome State Fault Refusal :=
  bayerCommand (.decBayer8 pat) pat 8 s.raw8 s

/-- DEC.BAYER10 (R207). -/
def execDecBayer10 (pat : Pattern) (s : State) : Host.Outcome State Fault Refusal :=
  bayerCommand (.decBayer10 pat) pat 10 s.raw16 s

/-- DEC.BAYER12 (R208). -/
def execDecBayer12 (pat : Pattern) (s : State) : Host.Outcome State Fault Refusal :=
  bayerCommand (.decBayer12 pat) pat 12 s.raw16 s

/-- DEC.BAYER.BADBPS: UnsupportedBitDepth, always; its fields are not examined (R209). -/
def execDecBayerBadBps (_bps : BitVec 8) (_pat : Pattern) (s : State) : Host.Outcome State Fault Refusal :=
  .next (s.raise .unsupportedBitDepth s.format)

end Sys2Proof.Machine
end

