-- ==== Sys2Proof/Machine/Compressed.lean ====
section
/-! DEFINITION. The compressed pass-through (43_compressed.md). -/

namespace Sys2Proof.Machine

/-- DEC.MJPEG: no memory access, no check, no error; the result buffer is the source buffer (R190). -/
def execDecMjpeg (s : State) : Host.Outcome State Fault Refusal := .next (s.complete .compressed s.srcAddr s.srcLen)

end Sys2Proof.Machine
end

