-- ==== Sys2Proof/Machine/Csc.lean ====
section
/-! DEFINITION. The CSC sub-block and DEC.YUV422 (41_yuv422_csc.md). -/

namespace Sys2Proof.Machine

/-- The table row of a channel (R152). -/
def cscRow (t : Config.CscTable) : Channel → Config.CscRow
  | .red => t.red
  | .green => t.green
  | .blue => t.blue

/-- N[c], the exact scaled sum (R153). -/
def cscSum (t : Config.CscTable) (c : Channel) (y u v : Byte) : Int :=
  (cscRow t c).y * y.toNat + (cscRow t c).u * u.toNat + (cscRow t c).v * v.toNat + (cscRow t c).offset

/-- T[c] = trunc(N[c] / CSC_SCALE), toward zero (R153, R154). -/
def cscTrunc (t : Config.CscTable) (c : Channel) (y u v : Byte) : Int := Int.tdiv (cscSum t c y u v) t.scale

/-- Csc[c] = T[c] mod 256: wraps, never clamps (R153, R154). -/
def csc (t : Config.CscTable) (c : Channel) (y u v : Byte) : Byte := BitVec.ofInt 8 (cscTrunc t c y u v)

/-- Y(p), the luma of pixel p: byte 0 or 2 of macropixel p div 2 (R150). -/
def State.luma (s : State) (p : Nat) : Byte := s.src (4 * (p / 2) + 2 * (p % 2))

/-- U(p), shared by the two pixels of the macropixel (R150, R151). -/
def State.chromaU (s : State) (p : Nat) : Byte := s.src (4 * (p / 2) + 1)

/-- V(p), shared by the two pixels of the macropixel (R150, R151). -/
def State.chromaV (s : State) (p : Nat) : Byte := s.src (4 * (p / 2) + 3)

/-- The output sample of DEC.YUV422 (R155). -/
def State.yuv422Sample (s : State) (y x : Nat) (c : Channel) : Byte :=
  csc s.params.csc c (s.luma (y * s.w + x)) (s.chromaU (y * s.w + x)) (s.chromaV (y * s.w + x))

/-- DEC.YUV422 (R155). -/
def execDecYuv422 (s : State) : Host.Outcome State Fault Refusal := rasterCommand .decYuv422 s.yuv422Sample s

end Sys2Proof.Machine
end

