-- ==== Sys2Proof/Machine/HostControl.lean ====
section
/-! DEFINITION. What the host and the platform do to the block: START (47_host_control.md R250), register accesses
(10_state.md R20 to R34), memory accesses (R258, R307), the hardware reset (70_reset_and_hazards.md R300, R301); and the
command every unrecognised tag selects (40_dispatch_geometry.md R122). -/

namespace Sys2Proof.Machine

/-- DEC.UNRECOGNISED: UnsupportedFormat, always; the word it carries is the FORMAT value (R122). -/
def execDecUnrecognised (_tag : Word) (s : State) : Host.Outcome State Fault Refusal :=
  .next (s.raise .unsupportedFormat s.format)

/-- START: ignored while a command runs, else begins one (R250); bits 31:1 of the word are ignored (R28). -/
def execStart (_ignored : BitVec 31) (s : State) : Host.Outcome State Fault Refusal :=
  if s.busy then .next s else .next s.beginCommand

/-- The command in a host register write, when the write goes to CTRL and is a START (R28, R250). -/
def startOf (off : BitVec 4) (data : Word) : Option Instr :=
  if off = ctrlOffset then (decodeCtrl data).toOption else none

/-- A register read: the data goes to the host, nothing else changes. -/
def hostRegRead (off : BitVec 4) (s : State) : Host.Outcome State Fault Refusal :=
  .next { s with hostData := s.regRead off }

/-- A register write that is no START. -/
def hostRegWrite (off : BitVec 4) (data : Word) (s : State) : Host.Outcome State Fault Refusal :=
  .next (s.regWrite off data)

/-- A byte written to memory by an agent that is not this block. While a command runs, a write into its destination range
is refused (R307, U7), and a write into its source buffer happens and leaves its mark (R305, U1). -/
def hostMemWrite (addr : Word) (byte : Byte) (s : State) : Host.Outcome State Fault Refusal :=
  if 2 ^ s.params.aw ≤ addr.toNat then .fault .noSuchAddress
  else if s.busy && s.inDestination addr.toNat then .refused .destinationWriteWhileBusy
  else .next { s with
    mem := Memory.write s.mem addr.toNat byte,
    srcDisturbed := s.srcDisturbed || (s.busy && s.inSource addr.toNat) }

/-- A byte of memory read by the host. While a command runs, a byte of its destination range reads as any value
(R307, U7). -/
def hostMemRead (addr : Word) (s : State) : Host.Outcome State Fault Refusal :=
  if 2 ^ s.params.aw ≤ addr.toNat then .fault .noSuchAddress
  else if s.busy && s.inDestination addr.toNat then
    .next { s with
      hostData := BitVec.setWidth 32 (Config.freeByte s.freeCount addr.toNat), freeCount := s.freeCount + 1 }
  else .next { s with hostData := BitVec.setWidth 32 (Memory.read s.mem addr.toNat) }

/-- What reset leaves in memory: a command in flight is abandoned with any values in its destination range (R301, U5);
otherwise nothing changes (R50). -/
def State.abandonCommand (s : State) : State :=
  if s.busy then
    { s with
      mem := Memory.writeFree s.mem s.dstAddr.toNat s.destinationLength s.freeCount,
      freeCount := s.freeCount + 1 }
  else s

/-- Every register at its reset value (R50). -/
def State.clearRegisters (s : State) : State :=
  { s with
    format := 0, width := 0, height := 0, srcAddr := 0, srcLen := 0, dstAddr := 0,
    status := 0, error := 0, errinfo := 0, outAddr := 0, outLen := 0, srcDisturbed := false }

/-- The hardware reset (R50, R300, R301). -/
def hardwareReset (s : State) : Host.Outcome State Fault Refusal := .next s.abandonCommand.clearRegisters

end Sys2Proof.Machine
end

