-- ==== Sys2Proof/Machine/PackedRgb.lean ====
section
/-! DEFINITION. The packed RGB commands (42_packed_rgb.md): byte permutations, no arithmetic on any sample. -/

namespace Sys2Proof.Machine

/-- The output sample of DEC.RGB24: stored B, G, R (R170). -/
def State.rgb24Sample (s : State) (y x : Nat) (c : Channel) : Byte := s.src (3 * (y * s.w + x) + (2 - c.index))

/-- The output sample of DEC.BGR24: stored R, G, B (R171). -/
def State.bgr24Sample (s : State) (y x : Nat) (c : Channel) : Byte := s.src (3 * (y * s.w + x) + c.index)

/-- The number of the reversed element that is dropped (R7, R172). -/
def dropIndex : Config.ArgbDrop → Nat
  | .element0 => 0
  | .element3 => 3

/-- The output sample of the 32-bit commands: four bytes reversed, element ARGB_DROP removed (R172). -/
def State.packed32Sample (s : State) (y x : Nat) (c : Channel) : Byte :=
  let p := y * s.w + x
  let rev := [s.src (4 * p + 3), s.src (4 * p + 2), s.src (4 * p + 1), s.src (4 * p)]
  (rev.eraseIdx (dropIndex s.params.argbDrop)).getD c.index 0

/-- DEC.RGB24 (R170). -/
def execDecRgb24 (s : State) : Host.Outcome State Fault Refusal := rasterCommand .decRgb24 s.rgb24Sample s

/-- DEC.BGR24 (R171). -/
def execDecBgr24 (s : State) : Host.Outcome State Fault Refusal := rasterCommand .decBgr24 s.bgr24Sample s

/-- DEC.ARGB32 (R172). -/
def execDecArgb32 (s : State) : Host.Outcome State Fault Refusal := rasterCommand .decArgb32 s.packed32Sample s

/-- DEC.XRGB32: DEC.ARGB32 in every respect except the encoding (R173). -/
def execDecXrgb32 (s : State) : Host.Outcome State Fault Refusal := rasterCommand .decXrgb32 s.packed32Sample s

end Sys2Proof.Machine
end

