-- ==== Sys2Proof/Machine/Dispatch.lean ====
section
/-! DEFINITION. The dispatch on the command: one arm for each row of spec/opcode_table.json
(40_dispatch_geometry.md R121). -/

namespace Sys2Proof.Machine

def exec (i : Instr) (s : State) : Host.Outcome State Fault Refusal :=
  match i with
  | .decYuv422 => Sys2Proof.Machine.execDecYuv422 s
  | .decRgb24 => Sys2Proof.Machine.execDecRgb24 s
  | .decBgr24 => Sys2Proof.Machine.execDecBgr24 s
  | .decArgb32 => Sys2Proof.Machine.execDecArgb32 s
  | .decXrgb32 => Sys2Proof.Machine.execDecXrgb32 s
  | .decMjpeg => Sys2Proof.Machine.execDecMjpeg s
  | .decBayer8 pat => Sys2Proof.Machine.execDecBayer8 pat s
  | .decBayer10 pat => Sys2Proof.Machine.execDecBayer10 pat s
  | .decBayer12 pat => Sys2Proof.Machine.execDecBayer12 pat s
  | .decBayerBadBps bps pat => Sys2Proof.Machine.execDecBayerBadBps bps pat s
  | .decUnrecognised tag => Sys2Proof.Machine.execDecUnrecognised tag s
  | .start ignored => Sys2Proof.Machine.execStart ignored s

end Sys2Proof.Machine
end

