-- ==== Sys2Proof/Machine/Step.lean ====
section
/-! DEFINITION. One step of the machine: the next input, or the block's own turn when there is none
(notes/assumptions/3.md). A command is taken from FORMAT when the block runs it, and from the word written to CTRL when
that write is a START (10_state.md R27, 20_memory.md R77). -/

namespace Sys2Proof.Machine

/-- The block's turn: the command in flight runs to completion (R120, R254); an idle block keeps its registers (R292). -/
def pdcTurn (s : State) : Host.Outcome State Fault Refusal := if s.busy then exec s.command s else .next s

/-- What one input does. -/
def applyInput (input : Input) (s : State) : Host.Outcome State Fault Refusal :=
  match input with
  | .regWrite off data =>
    match startOf off data with
    | some i => exec i s
    | none => hostRegWrite off data s
  | .regRead off => hostRegRead off s
  | .memWrite addr byte => hostMemWrite addr byte s
  | .memRead addr => hostMemRead addr s
  | .reset => hardwareReset s
  | .pdc => pdcTurn s

/-- The next state: the head of `inputs` is taken and happens; with none left it is the block's turn. -/
def step (s : State) : Host.Outcome State Fault Refusal :=
  match s.inputs with
  | [] => pdcTurn s
  | input :: rest => applyInput input { s with inputs := rest }

/-- A table row's word placed so that the very next step runs it. A FORMAT word: the FORMAT register holds it, its START
has been accepted and the block has its turn. A CTRL word: the host's next access writes it to CTRL
(notes/assumptions/11.md). -/
def State.withFetchWord (s : State) (nbits w : Nat) : State :=
  match tableReg nbits with
  | .format =>
    { State.beginCommand { s with format := BitVec.ofNat 32 w } with inputs := .pdc :: s.inputs }
  | .ctrl => { s with inputs := .regWrite ctrlOffset (BitVec.ofNat 32 w) :: s.inputs }

end Sys2Proof.Machine
end

