-- ==== Sys2Proof/WellFormed.lean ====
section
/-! DEFINITION. Which terms of `Instr` are commands a word can encode: a BADBPS command holds a depth no earlier
row takes, and an UNRECOGNISED command a word no earlier row takes (30_encoding.md R95, R96). -/

namespace Sys2Proof

/-- BPS is one of the three legal depths (R99). -/
def legalBps (bps : BitVec 8) : Bool := bps == 8 || bps == 10 || bps == 12

/-- A FORMAT value is a recognised tag (R96): FAMILY is 1 to 6 and every other bit is 0, so that the word is 1 to 6; or
FAMILY is 7 and RSV0 and RSV1 are 0, so that bits 7:0 are 7 and bits 31:24 are 0. -/
def recognisedTag (tag : Word) : Bool :=
  (1 ≤ tag.toNat && tag.toNat ≤ 6) || (tag.extractLsb' 0 8 == 7 && tag.extractLsb' 24 8 == 0)

/-- The command is one that some word encodes. -/
def Instr.wellFormed : Instr → Bool
  | .decYuv422 => true
  | .decRgb24 => true
  | .decBgr24 => true
  | .decArgb32 => true
  | .decXrgb32 => true
  | .decMjpeg => true
  | .decBayer8 _ => true
  | .decBayer10 _ => true
  | .decBayer12 _ => true
  | .decBayerBadBps bps _ => !legalBps bps
  | .decUnrecognised tag => !recognisedTag tag
  | .start _ => true

end Sys2Proof
end

