-- ==== Sys2Proof/Safety.lean ====
section
/-! DEFINITION. The terms claims are stated in: the legal states (10_state.md R30 to R33), the duties of the host
(70_reset_and_hazards.md R305 to R307), and what a completed command leaves. -/

namespace Sys2Proof.Safety

open Sys2Proof.Machine

/-! ### Legal states -/

/-- ERROR holds the code of the one kind that the command with tag `info` can have raised (60_exceptions.md R270, R275). -/
def errorFits (code info : Word) : Bool :=
  match decodeFormat info with
  | .decUnrecognised _ => code == 1
  | .decBayerBadBps _ _ => code == 2
  | .decBayer8 pat => code == if (patternSearch pat).isSome then 4 else 3
  | .decBayer10 pat => code == if (patternSearch pat).isSome then 4 else 3
  | .decBayer12 pat => code == if (patternSearch pat).isSome then 4 else 3
  | .decYuv422 => code == 4
  | .decRgb24 => code == 4
  | .decBgr24 => code == 4
  | .decArgb32 => code == 4
  | .decXrgb32 => code == 4
  | .decMjpeg => false
  | .start _ => false

/-- The four result registers hold 0. -/
def ResultsClear (s : State) : Prop := s.error = 0 ∧ s.errinfo = 0 ∧ s.outAddr = 0 ∧ s.outLen = 0

/-- The status registers are one of the five sets that occur (R30), with the results each goes with (R31 to R33). -/
def ResultLegal (s : State) : Prop :=
  (s.status = 0x00000000 ∧ ResultsClear s)
  ∨ (s.status = 0x00000001 ∧ ResultsClear s)
  ∨ (s.status = 0x00000012 ∧ s.error = 0 ∧ s.errinfo = 0 ∧ 0 < s.outLen.toNat ∧ s.outLen.toNat % 3 = 0
      ∧ s.outAddr.toNat + s.outLen.toNat ≤ 2 ^ s.params.aw)
  ∨ (s.status = 0x00000022 ∧ s.error = 0 ∧ s.errinfo = 0)
  ∨ (s.status = 0x00000036 ∧ errorFits s.error s.errinfo = true ∧ s.outAddr = 0 ∧ s.outLen = 0)

/-- The invariant of the machine: legal parameters (R7), canonical memory inside the address space (R46, R72), legal
status registers, and no mark of a disturbed source without a command in flight. -/
def Inv (s : State) : Prop :=
  s.params.wf = true ∧ Memory.wf s.mem = true ∧ Memory.below s.mem (2 ^ s.params.aw) = true ∧ ResultLegal s
    ∧ (s.srcDisturbed = true → s.busy = true)

/-! ### The host's duties -/

/-- R305 and R307 for one input: while a command runs, no byte of its source buffer or destination range is written,
and no byte of its destination range is read. -/
def dutifulInput (s : State) : Input → Bool
  | .regWrite _ _ => true
  | .regRead _ => true
  | .memWrite addr _ => !(s.busy && (s.inSource addr.toNat || s.inDestination addr.toNat))
  | .memRead addr => !(s.busy && s.inDestination addr.toNat)
  | .reset => true
  | .pdc => true

/-- R306: the source buffer and the raster's destination range share no byte. -/
def RangesApart (s : State) : Prop :=
  s.srcAddr.toNat + s.srcLen.toNat ≤ s.dstAddr.toNat ∨ s.dstAddr.toNat + 3 * s.w * s.h ≤ s.srcAddr.toNat

/-! ### Conditions and results of a raster command -/

/-- None of R124 (a), (c), (d), (e) holds for a command of `bpp` source bytes per pixel. -/
def GeometryHolds (bpp : Nat) (s : State) : Prop :=
  0 < s.w ∧ 0 < s.h ∧ s.srcLen.toNat = bpp * s.w * s.h
    ∧ s.srcAddr.toNat + s.srcLen.toNat ≤ 2 ^ s.params.aw
    ∧ s.dstAddr.toNat + 3 * s.w * s.h ≤ 2 ^ s.params.aw

/-- A raster command of `bpp` source bytes per pixel can run with its defined outcome: legal parameters and memory, a
geometry that fits, and a host that kept R305 and R306. -/
def Ready (bpp : Nat) (s : State) : Prop :=
  s.params.wf = true ∧ Memory.wf s.mem = true ∧ GeometryHolds bpp s ∧ RangesApart s ∧ s.srcDisturbed = false

/-- The six operand registers are the same. -/
def SameOperands (s t : State) : Prop :=
  t.format = s.format ∧ t.width = s.width ∧ t.height = s.height ∧ t.srcAddr = s.srcAddr ∧ t.srcLen = s.srcLen
    ∧ t.dstAddr = s.dstAddr

/-- The five status registers are the same. -/
def SameStatus (s t : State) : Prop :=
  t.status = s.status ∧ t.error = s.error ∧ t.errinfo = s.errinfo ∧ t.outAddr = s.outAddr ∧ t.outLen = s.outLen

/-- The parameters and the model's own fields a command does not touch are the same. -/
def SameSurroundings (s t : State) : Prop :=
  t.params = s.params ∧ t.inputs = s.inputs ∧ t.hostData = s.hostData

/-- What a raster command leaves beside the raster: the status registers of KIND = RGB (R253), every byte outside the
destination range (R67), every operand register (R132) and everything else unchanged. -/
def RasterCompleted (s t : State) : Prop :=
  t.status = 0x00000012 ∧ t.error = 0 ∧ t.errinfo = 0 ∧ t.outAddr = s.dstAddr ∧ t.outLen.toNat = 3 * s.w * s.h
    ∧ (∀ a, (a < s.dstAddr.toNat ∨ s.dstAddr.toNat + 3 * s.w * s.h ≤ a) → Memory.read t.mem a = Memory.read s.mem a)
    ∧ SameOperands s t ∧ SameSurroundings s t ∧ t.freeCount = s.freeCount ∧ t.srcDisturbed = false

/-- The byte at destination offset `j` (00_scope.md R11, Dst(j)). -/
def dst (s t : State) (j : Nat) : Byte := Memory.read t.mem (s.dstAddr.toNat + j)

/-- What `raise <Kind>(FORMAT)` leaves: the five status registers of R276 and nothing else changed (R277). -/
def failedWith (code : Word) (s : State) : State :=
  { s with status := 0x00000036, error := code, errinfo := s.format, outAddr := 0, outLen := 0, srcDisturbed := false }

/-- The in-frame positions of the 3×3 window of (y, x) that are populated for `c` (45_demosaic.md R221, R225, R230). -/
def neighbours (h w : Nat) (o : BayerOffsets) (c : Channel) (y x : Nat) : List (Nat × Nat) :=
  (List.range h).flatMap fun yy =>
    ((List.range w).filter fun xx =>
      y ≤ yy + 1 && yy ≤ y + 1 && x ≤ xx + 1 && xx ≤ x + 1 && populated o c yy xx).map fun xx => (yy, xx)

/-- R229's rows(y, rp), and with columns for rows cols(x, cp): how many of p − 1, p, p + 1 lie below `size` and have
the phase. -/
def phaseCount (size phase p : Nat) : Nat :=
  ((List.range size).filter fun q => p ≤ q + 1 && q ≤ p + 1 && q % 2 == phase).length

/-- P at linear index q, as a number: (raw(q) × 2^(16 − BPS)) mod 65536 (R201). -/
def justified (bps : Nat) (raw : Nat → Nat) (q : Nat) : Nat := raw q * 2 ^ (16 - bps) % 65536

/-- The destination holds the raster of a Bayer frame: at every pixel and channel the floor of the mean of the
populated in-frame samples of the window, 0 where there is none, divided by 256 (R204, R206, R226, R129). -/
def BayerStored (bps : Nat) (raw : Nat → Nat) (o : BayerOffsets) (s t : State) : Prop :=
  ∀ y x, y < s.h → x < s.w → ∀ c : Channel,
    (dst s t (3 * (y * s.w + x) + c.index)).toNat =
      ((neighbours s.h s.w o c y x).map fun q => justified bps raw (q.1 * s.w + q.2)).sum
        / (neighbours s.h s.w o c y x).length / 256

/-- The state at the end of a step, when the step has one. -/
def nextOf (o : Host.Outcome State Fault Refusal) : Option State :=
  match o with
  | .next t => some t
  | .fault _ => none
  | .refused _ => none

end Sys2Proof.Safety
end

