-- ==== Sys2Proof/Certificates/Slice0/Obligations.lean ====
section
/-! DEFINITION. The statements for the provers. -/

open Sys2Proof Sys2Proof.Machine Sys2Proof.Safety

/-! ### Encoding -/

/-- Decoding the bytes the encoder gives a well-formed command gives the command back (R91, R95, R102). -/
def Obligations.DecodeOfEncode : Prop :=
  ∀ i : Instr, i.wellFormed = true → decode i.cmdReg (encode i) = .ok i

/-- Every FORMAT value selects a command, that command is one the value encodes, and no bit of the value is lost
(R97, R121). -/
def Obligations.EveryFormatWordIsACommand : Prop :=
  ∀ w : Word, (decodeFormat w).wellFormed = true ∧ (decodeFormat w).cmdReg = .format ∧ encodeWord (decodeFormat w) = w

/-- R96: a FORMAT value is unrecognised exactly when none of rows 1 to 10 of R95 matches; that is, unless it is 1 to 6, or
its low byte is 7 and its high byte 0. -/
def Obligations.UnrecognisedExactlyOffTheRows : Prop :=
  ∀ w : Word,
    (decodeFormat w = .decUnrecognised w ↔
      ∀ row ∈ ([(0x00000001, 0xFFFFFFFF), (0x00000002, 0xFFFFFFFF), (0x00000003, 0xFFFFFFFF), (0x00000004, 0xFFFFFFFF),
        (0x00000005, 0xFFFFFFFF), (0x00000006, 0xFFFFFFFF), (0x00000807, 0xFF00FFFF), (0x00000A07, 0xFF00FFFF),
        (0x00000C07, 0xFF00FFFF), (0x00000007, 0xFF0000FF)] : List (Word × Word)), w &&& row.2 ≠ row.1)
    ∧ (decodeFormat w = .decUnrecognised w ↔
        ¬((1 ≤ w.toNat ∧ w.toNat ≤ 6) ∨ (w.toNat % 256 = 7 ∧ w.toNat / 2 ^ 24 = 0)))

/-- The tag 0x07 + (bps << 8) + (PATTERN << 16) selects the Bayer row of its depth, with its pattern (R95 rows 7 to 10,
R99, R102). -/
def Obligations.BayerTagSelectsItsDepth : Prop :=
  ∀ (bps : BitVec 8) (pat : Pattern),
    decodeFormat (BitVec.ofNat 32 (0x07 + bps.toNat * 2 ^ 8 + (patternByte pat).toNat * 2 ^ 16)) =
      if bps = 8 then .decBayer8 pat else if bps = 10 then .decBayer10 pat else if bps = 12 then .decBayer12 pat
      else .decBayerBadBps bps pat

/-- Words written out from the encoding select the commands of vector V-TAG (R91 to R96). -/
def Obligations.WrittenWordsDecode : Prop :=
  decodeFormat 0x00000001 = .decYuv422 ∧ decodeFormat 0x00000003 = .decBgr24
    ∧ decodeFormat 0x00940807 = .decBayer8 ⟨.r, .g, .g, .b⟩ ∧ decodeFormat 0x00490A07 = .decBayer10 ⟨.g, .b, .r, .g⟩
    ∧ decodeFormat 0x00160C07 = .decBayer12 ⟨.b, .g, .g, .r⟩
    ∧ decodeFormat 0x00D40E07 = .decBayerBadBps 14 ⟨.r, .g, .g, .x⟩
    ∧ decodeFormat 0x80000006 = .decUnrecognised 0x80000006
    ∧ decodeCtrl 0xFFFFFFFF = .ok (.start 0x7FFFFFFF) ∧ decodeCtrl 2 = .error .startBitClear

/-- The pattern search succeeds exactly for one R, two G and one B, and each offset it gives is a position of the cell
that holds its channel, the first G before the second (R94, R203). -/
def Obligations.PatternSearchFindsTheChannels : Prop :=
  ∀ pat : Pattern,
    ((patternSearch pat).isSome = true ↔
      [pat.c0, pat.c1, pat.c2, pat.c3].count .r = 1 ∧ [pat.c0, pat.c1, pat.c2, pat.c3].count .g = 2
        ∧ [pat.c0, pat.c1, pat.c2, pat.c3].count .b = 1)
    ∧ ∀ o, patternSearch pat = some o →
        patternAt pat (o.red.col + 2 * o.red.row) = .r ∧ patternAt pat (o.green0.col + 2 * o.green0.row) = .g
          ∧ patternAt pat (o.green1.col + 2 * o.green1.row) = .g ∧ patternAt pat (o.blue.col + 2 * o.blue.row) = .b
          ∧ o.green0.col.val + 2 * o.green0.row.val < o.green1.col.val + 2 * o.green1.row.val

/-! ### One step -/

/-- When the block has its turn with a command in flight, the step is that of the command its FORMAT bytes decode to, on
the state less the input taken (R120 step 1; the turn is notes/assumptions/3.md). -/
def Obligations.StepRunsTheSelectedCommand : Prop :=
  ∀ (s : State) (i : Instr), s.busy = true → decode .format (bytesOfWord s.format) = .ok i →
    (s.inputs = [] → step s = exec i s) ∧ (∀ rest, s.inputs = .pdc :: rest → step s = exec i { s with inputs := rest })

/-- When the host writes a word to CTRL whose bytes decode to a command, the step is that of the command, on the state
less the input taken (R250; the list of inputs is notes/assumptions/3.md). -/
def Obligations.StepRunsTheWrittenStart : Prop :=
  ∀ (s : State) (data : Word) (rest : List Input) (i : Instr), s.inputs = .regWrite 6 data :: rest →
    decode .ctrl (bytesOfWord data) = .ok i → step s = exec i { s with inputs := rest }

/-- With no command in flight the block keeps its registers, and memory (R292; that an idle block steps to itself is
the model's choice, notes/assumptions/3.md). -/
def Obligations.IdleBlockKeepsItsState : Prop :=
  ∀ s : State, s.busy = false →
    (s.inputs = [] → step s = .next s) ∧ (∀ rest, s.inputs = .pdc :: rest → step s = .next { s with inputs := rest })

/-- A command placed by withFetchWord is what the very next step runs, with every operand but FORMAT, and memory, as
they were (the model's choice, notes/assumptions/11.md and 12.md). -/
def Obligations.PlacedWordRunsNext : Prop :=
  ∀ (s : State) (nbits w : Nat) (i : Instr), decodeTableWord nbits w = some i →
    ∃ s', step (s.withFetchWord nbits w) = exec i s' ∧ s'.mem = s.mem ∧ s'.inputs = s.inputs ∧ s'.width = s.width
      ∧ s'.height = s.height ∧ s'.srcAddr = s.srcAddr ∧ s'.srcLen = s.srcLen ∧ s'.dstAddr = s.dstAddr
      ∧ s'.params = s.params ∧ (i.cmdReg = .ctrl → s' = s)

/-! ### START -/

/-- R250: a write to CTRL with bit 0 set, while BUSY = 0, sets BUSY and clears the rest of the five status registers;
while BUSY = 1 it does nothing; with bit 0 clear it does nothing. Nothing else changes, the operands of the command among
it. -/
def Obligations.StartBeginsACommand : Prop :=
  ∀ (s : State) (data : Word) (rest : List Input), s.inputs = .regWrite 6 data :: rest →
    (data.getLsbD 0 = true → s.busy = false →
      step s = .next { s with
        inputs := rest, status := 0x00000001, error := 0, errinfo := 0, outAddr := 0, outLen := 0,
        srcDisturbed := false })
    ∧ (data.getLsbD 0 = true → s.busy = true → step s = .next { s with inputs := rest })
    ∧ (data.getLsbD 0 = false → step s = .next { s with inputs := rest })

/-- START as a command: accepted while BUSY = 0, whatever its ignored bits; dropped while BUSY = 1 (R28, R250). -/
def Obligations.StartCompletes : Prop :=
  ∀ (s : State) (ignored : BitVec 31),
    (s.busy = false →
      exec (.start ignored) s = .next { s with
        status := 0x00000001, error := 0, errinfo := 0, outAddr := 0, outLen := 0, srcDisturbed := false })
    ∧ (s.busy = true → exec (.start ignored) s = .next s)

/-! ### The commands -/

/-- R190: DEC.MJPEG completes with KIND = COMPRESSED and the source buffer as its result; it touches no memory, makes no
check and never fails. -/
def Obligations.MjpegPassesThrough : Prop :=
  decodeFormat 0x00000006 = .decMjpeg
    ∧ ∀ s : State, exec .decMjpeg s = .next { s with
        status := 0x00000022, error := 0, errinfo := 0, outAddr := s.srcAddr, outLen := s.srcLen, srcDisturbed := false }

/-- R122: every unrecognised tag (R96), the reset value 0 among them, selects DEC.UNRECOGNISED, which raises
UnsupportedFormat, whatever the other operands hold, and touches no memory. -/
def Obligations.UnrecognisedAlwaysFails : Prop :=
  decodeFormat 0 = .decUnrecognised 0
    ∧ (∀ tag : Word, recognisedTag tag = false → decodeFormat tag = .decUnrecognised tag)
    ∧ ∀ (tag : Word) (s : State), exec (.decUnrecognised tag) s = .next (failedWith 1 s)

/-- R209: a Bayer tag with BPS not 8, 10 or 12 selects DEC.BAYER.BADBPS, which raises UnsupportedBitDepth, whatever
the pattern and the other operands hold, and touches no memory. -/
def Obligations.BadDepthAlwaysFails : Prop :=
  (∀ (bps : BitVec 8) (pat : Pattern), bps ≠ 8 → bps ≠ 10 → bps ≠ 12 →
      decodeFormat (bayerTag bps pat) = .decBayerBadBps bps pat)
    ∧ ∀ (bps : BitVec 8) (pat : Pattern) (s : State), exec (.decBayerBadBps bps pat) s = .next (failedWith 2 s)

/-- R155: DEC.YUV422 stores Csc(Y(p), U(p), V(p)) of every pixel p = y × W + x, or raises GeometryMismatch. -/
def Obligations.Yuv422StoresTheTransform : Prop :=
  decodeFormat 0x00000001 = .decYuv422
    ∧ ∀ s : State,
      (Ready 2 s → s.w % 2 = 0 →
        ∃ t, exec .decYuv422 s = .next t ∧ RasterCompleted s t
          ∧ ∀ y x, y < s.h → x < s.w → ∀ c : Channel,
              dst s t (3 * (y * s.w + x) + c.index) =
                csc s.params.csc c (s.src (4 * ((y * s.w + x) / 2) + 2 * ((y * s.w + x) % 2)))
                  (s.src (4 * ((y * s.w + x) / 2) + 1)) (s.src (4 * ((y * s.w + x) / 2) + 3)))
      ∧ (¬(GeometryHolds 2 s ∧ s.w % 2 = 0) → exec .decYuv422 s = .next (failedWith 4 s))

/-- R170: DEC.RGB24 swaps the first and the third byte of every pixel, or raises GeometryMismatch. -/
def Obligations.Rgb24SwapsTheOuterBytes : Prop :=
  decodeFormat 0x00000002 = .decRgb24
    ∧ ∀ s : State,
      (Ready 3 s →
        ∃ t, exec .decRgb24 s = .next t ∧ RasterCompleted s t
          ∧ ∀ p, p < s.w * s.h →
              dst s t (3 * p) = s.src (3 * p + 2) ∧ dst s t (3 * p + 1) = s.src (3 * p + 1)
                ∧ dst s t (3 * p + 2) = s.src (3 * p))
      ∧ (¬GeometryHolds 3 s → exec .decRgb24 s = .next (failedWith 4 s))

/-- R171: DEC.BGR24 copies the source buffer byte for byte, or raises GeometryMismatch. -/
def Obligations.Bgr24CopiesTheSource : Prop :=
  decodeFormat 0x00000003 = .decBgr24
    ∧ ∀ s : State,
      (Ready 3 s →
        ∃ t, exec .decBgr24 s = .next t ∧ RasterCompleted s t ∧ ∀ j, j < 3 * s.w * s.h → dst s t j = s.src j)
      ∧ (¬GeometryHolds 3 s → exec .decBgr24 s = .next (failedWith 4 s))

/-- R172 and R173: DEC.ARGB32 and DEC.XRGB32 reverse the four bytes of every pixel and drop the element ARGB_DROP, or
raise GeometryMismatch. With ARGB_DROP = 0 the output is (R, G, B) = (third, second, first stored byte). -/
def Obligations.Packed32ReversesAndDrops : Prop :=
  decodeFormat 0x00000004 = .decArgb32 ∧ decodeFormat 0x00000005 = .decXrgb32
    ∧ ∀ i : Instr, i = .decArgb32 ∨ i = .decXrgb32 → ∀ s : State,
      (Ready 4 s →
        ∃ t, exec i s = .next t ∧ RasterCompleted s t
          ∧ ∀ p, p < s.w * s.h →
              (s.params.argbDrop = .element0 →
                dst s t (3 * p) = s.src (4 * p + 2) ∧ dst s t (3 * p + 1) = s.src (4 * p + 1)
                  ∧ dst s t (3 * p + 2) = s.src (4 * p))
              ∧ (s.params.argbDrop = .element3 →
                dst s t (3 * p) = s.src (4 * p + 3) ∧ dst s t (3 * p + 1) = s.src (4 * p + 2)
                  ∧ dst s t (3 * p + 2) = s.src (4 * p + 1)))
      ∧ (¬GeometryHolds 4 s → exec i s = .next (failedWith 4 s))

/-- R206: DEC.BAYER8 fails with MalformedMosaicPattern when the search fails, else with GeometryMismatch when the geometry
does not fit, else stores the narrowed window means of its one-byte samples. -/
def Obligations.Bayer8StoresTheMeans : Prop :=
  (∀ pat : Pattern, decodeFormat (bayerTag 8 pat) = .decBayer8 pat)
    ∧ ∀ (pat : Pattern) (s : State),
      (patternSearch pat = none → exec (.decBayer8 pat) s = .next (failedWith 3 s))
      ∧ ∀ o, patternSearch pat = some o →
        (Ready 1 s →
          ∃ t, exec (.decBayer8 pat) s = .next t ∧ RasterCompleted s t
            ∧ BayerStored 8 (fun q => (s.src q).toNat) o s t)
        ∧ (¬GeometryHolds 1 s → exec (.decBayer8 pat) s = .next (failedWith 4 s))

/-- R207: DEC.BAYER10, as DEC.BAYER8 with 10-bit samples in little-endian 16-bit words, their high bits lost. -/
def Obligations.Bayer10StoresTheMeans : Prop :=
  (∀ pat : Pattern, decodeFormat (bayerTag 10 pat) = .decBayer10 pat)
    ∧ ∀ (pat : Pattern) (s : State),
      (patternSearch pat = none → exec (.decBayer10 pat) s = .next (failedWith 3 s))
      ∧ ∀ o, patternSearch pat = some o →
        (Ready 2 s →
          ∃ t, exec (.decBayer10 pat) s = .next t ∧ RasterCompleted s t
            ∧ BayerStored 10 (fun q => (s.src (2 * q)).toNat + 256 * (s.src (2 * q + 1)).toNat) o s t)
        ∧ (¬GeometryHolds 2 s → exec (.decBayer10 pat) s = .next (failedWith 4 s))

/-- R208: DEC.BAYER12, as DEC.BAYER10 with 12-bit samples. -/
def Obligations.Bayer12StoresTheMeans : Prop :=
  (∀ pat : Pattern, decodeFormat (bayerTag 12 pat) = .decBayer12 pat)
    ∧ ∀ (pat : Pattern) (s : State),
      (patternSearch pat = none → exec (.decBayer12 pat) s = .next (failedWith 3 s))
      ∧ ∀ o, patternSearch pat = some o →
        (Ready 2 s →
          ∃ t, exec (.decBayer12 pat) s = .next t ∧ RasterCompleted s t
            ∧ BayerStored 12 (fun q => (s.src (2 * q)).toNat + 256 * (s.src (2 * q + 1)).toNat) o s t)
        ∧ (¬GeometryHolds 2 s → exec (.decBayer12 pat) s = .next (failedWith 4 s))

/-- The same logical pixels, stored B, G, R for RGB-24 and R, G, B for BGR-24, give the same raster (first property of
R175). -/
def Obligations.Rgb24AndBgr24Agree : Prop :=
  ∀ s1 s2 : State, Ready 3 s1 → Ready 3 s2 → s1.w = s2.w → s1.h = s2.h →
    (∀ p, p < s1.w * s1.h →
      s1.src (3 * p) = s2.src (3 * p + 2) ∧ s1.src (3 * p + 1) = s2.src (3 * p + 1)
        ∧ s1.src (3 * p + 2) = s2.src (3 * p)) →
    ∃ t1 t2, exec .decRgb24 s1 = .next t1 ∧ exec .decBgr24 s2 = .next t2
      ∧ ∀ j, j < 3 * s1.w * s1.h → dst s1 t1 j = dst s2 t2 j

/-! ### The colour transform -/

/-- R153: Csc is the exact scaled sum, divided toward zero and reduced modulo 256, for every coefficient table; with the
table of R152 the sums are those printed. -/
def Obligations.CscTruncatesTowardZeroAndWraps : Prop :=
  (∀ (t : Config.CscTable) (c : Channel) (y u v : Byte), 0 < t.scale →
    ((csc t c y u v).toNat : Int) =
      (if 0 ≤ cscSum t c y u v then cscSum t c y u v / t.scale else -(-cscSum t c y u v / t.scale)) % 256)
  ∧ cscTable.scale = 10000000
  ∧ ∀ y u v : Byte,
      cscSum cscTable .red y u v = 10000000 * y.toNat - 72 * u.toNat + 14020000 * v.toNat - 1794548000
      ∧ cscSum cscTable .green y u v = 10000000 * y.toNat - 3441000 * u.toNat - 7141000 * v.toNat + 1354587000
      ∧ cscSum cscTable .blue y u v = 10000000 * y.toNat + 17720000 * u.toNat + 154 * v.toNat - 2268183000

/-- The ranges of the sums and of the truncated values with the table of R152 (R157). -/
def Obligations.CscStaysInItsRanges : Prop :=
  ∀ y u v : Byte,
    (-1794566360 ≤ cscSum cscTable .red y u v ∧ cscSum cscTable .red y u v ≤ 4330552000)
    ∧ (-1343823000 ≤ cscSum cscTable .green y u v ∧ cscSum cscTable .green y u v ≤ 3904587000)
    ∧ (-2268183000 ≤ cscSum cscTable .blue y u v ∧ cscSum cscTable .blue y u v ≤ 4800456270)
    ∧ (-179 ≤ cscTrunc cscTable .red y u v ∧ cscTrunc cscTable .red y u v ≤ 433)
    ∧ (-134 ≤ cscTrunc cscTable .green y u v ∧ cscTrunc cscTable .green y u v ≤ 390)
    ∧ (-226 ≤ cscTrunc cscTable .blue y u v ∧ cscTrunc cscTable .blue y u v ≤ 480)

/-- A grey pixel (Y, 128, 128) gives (Y, Y, Y − 1) for Y from 1 to 255 and (0, 0, 0) for Y = 0 (R155). -/
def Obligations.GreyPixelsStayGrey : Prop :=
  ∀ y : Byte,
    csc cscTable .red y 128 128 = y ∧ csc cscTable .green y 128 128 = y
      ∧ csc cscTable .blue y 128 128 = if y = 0 then 0 else y - 1

/-! ### The demosaicker -/

/-- R226: D is the floor of the exact window sum over the count of populated in-frame positions, and 0 when there is none
(with the exactness of R225: nothing is lost in 16 bits). -/
def Obligations.DemosaicIsTheFloorOfTheMean : Prop :=
  ∀ (plane : Nat → Nat → Sample) (h w : Nat) (o : BayerOffsets) (y x : Nat) (c : Channel),
    ((neighbours h w o c y x).length ≠ 0 →
      (demosaic plane h w o y x c).toNat =
        ((neighbours h w o c y x).map fun q => (plane q.1 q.2).toNat).sum / (neighbours h w o c y x).length)
    ∧ ((neighbours h w o c y x).length = 0 → demosaic plane h w o y x c = 0)

/-- D lies between any lower and any upper bound of the populated samples of its window (R228). -/
def Obligations.DemosaicStaysWithinItsSamples : Prop :=
  ∀ (plane : Nat → Nat → Sample) (h w : Nat) (o : BayerOffsets) (y x : Nat) (c : Channel) (lo hi : Nat),
    windowCount h w o c y x ≠ 0 →
    (∀ q ∈ neighbours h w o c y x, lo ≤ (plane q.1 q.2).toNat ∧ (plane q.1 q.2).toNat ≤ hi) →
    lo ≤ (demosaic plane h w o y x c).toNat ∧ (demosaic plane h w o y x c).toNat ≤ hi

/-- The count is the sum over the populated offsets of rows times columns (R229); a doubled green offset counts once
(R234). -/
def Obligations.MaskCountClosedForm : Prop :=
  ∀ (h w : Nat) (o : BayerOffsets) (y x : Nat),
    windowCount h w o .red y x = phaseCount h o.red.row y * phaseCount w o.red.col x
    ∧ windowCount h w o .blue y x = phaseCount h o.blue.row y * phaseCount w o.blue.col x
    ∧ (o.green0 ≠ o.green1 →
        windowCount h w o .green y x =
          phaseCount h o.green0.row y * phaseCount w o.green0.col x
            + phaseCount h o.green1.row y * phaseCount w o.green1.col x)
    ∧ (o.green0 = o.green1 →
        windowCount h w o .green y x = phaseCount h o.green0.row y * phaseCount w o.green0.col x)

/-- In a frame of at least two rows and columns every channel of a valid pattern has at least one sample in every window,
and never more than six; the sum is at most six times the largest sample (R225, R227, R229). -/
def Obligations.MaskIsNeverZeroInARealFrame : Prop :=
  ∀ (pat : Pattern) (o : BayerOffsets) (plane : Nat → Nat → Sample) (h w y x : Nat) (c : Channel),
    patternSearch pat = some o → 2 ≤ h → 2 ≤ w → y < h → x < w →
    1 ≤ windowCount h w o c y x ∧ windowCount h w o c y x ≤ 6 ∧ windowSum plane h w o c y x ≤ 393210

/-- Where every populated sample of a channel is v, the output is v at every pixel with a sample in its window, borders
included (R232). -/
def Obligations.FlatFieldsAreReproduced : Prop :=
  ∀ (plane : Nat → Nat → Sample) (h w : Nat) (o : BayerOffsets) (c : Channel) (v : Sample),
    (∀ yy xx, yy < h → xx < w → populated o c yy xx = true → plane yy xx = v) →
    ∀ y x, windowCount h w o c y x ≠ 0 → demosaic plane h w o y x c = v

/-- R205: with n ≥ 1 populated samples below 2^BPS the output byte is sum div (n × 2^(BPS − 8)); with none it is 0. -/
def Obligations.BayerNetLaw : Prop :=
  ∀ (bps : Nat) (raw : Nat → Nat) (h w : Nat) (o : BayerOffsets) (y x : Nat) (c : Channel),
    bps = 8 ∨ bps = 10 ∨ bps = 12 → (∀ q ∈ neighbours h w o c y x, raw (q.1 * w + q.2) < 2 ^ bps) →
    ((neighbours h w o c y x).length ≠ 0 →
      (narrow (demosaic (samplePlane bps w raw) h w o y x c)).toNat =
        ((neighbours h w o c y x).map fun q => raw (q.1 * w + q.2)).sum
          / ((neighbours h w o c y x).length * 2 ^ (bps - 8)))
    ∧ ((neighbours h w o c y x).length = 0 → narrow (demosaic (samplePlane bps w raw) h w o y x c) = 0)

/-! ### Errors and completion -/

/-- R124: a raster command (a Bayer one with a valid pattern) raises GeometryMismatch exactly when one of (a) to (e) holds,
with the lengths of R123; otherwise it completes with KIND = RGB, and OUT_LEN fits its register. No other command raises
it, nor a Bayer command whose pattern fails. -/
def Obligations.GeometryMismatchExactly : Prop :=
  (∀ (i : Instr) (s t : State), i.cmdReg = .format → bytesPerPixel i = none ∨ patternOk i = false →
    exec i s = .next t → t.error ≠ 4)
  ∧ ∀ (pat : Pattern) (s : State), (patternSearch pat).isSome = true →
    ∀ r ∈ ([(.decYuv422, 2), (.decRgb24, 3), (.decBgr24, 3), (.decArgb32, 4), (.decXrgb32, 4), (.decBayer8 pat, 1),
        (.decBayer10 pat, 2), (.decBayer12 pat, 2)] : List (Instr × Nat)),
      let mismatch := s.w = 0 ∨ s.h = 0 ∨ (r.1 = .decYuv422 ∧ s.w % 2 = 1) ∨ s.srcLen.toNat ≠ r.2 * s.w * s.h
        ∨ s.srcAddr.toNat + s.srcLen.toNat > 2 ^ s.params.aw
        ∨ s.dstAddr.toNat + 3 * s.w * s.h > 2 ^ s.params.aw
      (mismatch → exec r.1 s = .next (failedWith 4 s))
      ∧ (¬mismatch → ∃ t, exec r.1 s = .next t ∧ t.status = 0x00000012 ∧ t.error = 0
          ∧ (s.params.wf = true → t.outLen.toNat = 3 * s.w * s.h))

/-- R275: the error kind reported is the first in the order UnsupportedFormat, UnsupportedBitDepth,
MalformedMosaicPattern, GeometryMismatch that applies to the FORMAT value and the operands, and none when none does. -/
def Obligations.ErrorPriority : Prop :=
  ∀ s : State, ∃ t, exec s.command s = .next t
    ∧ t.error =
      if recognisedTag s.format = false then 1
      else if familyOf s.format = 7 ∧ legalBps (bpsOf s.format) = false then 2
      else if familyOf s.format = 7 ∧ patternSearch (patternOf s.format) = none then 3
      else if s.format ≠ 6 ∧ geometryFails s.command s = true then 4
      else 0

/-- R276: a command that ends with ERR set has written the five status registers as `raise` does, and changed nothing
else. -/
def Obligations.FailureChangesOnlyTheStatusRegisters : Prop :=
  ∀ (i : Instr) (s t : State), i.cmdReg = .format → exec i s = .next t → t.err = true →
    (t = failedWith 1 s ∨ t = failedWith 2 s ∨ t = failedWith 3 s ∨ t = failedWith 4 s)

/-- R253: every command completes, in one of three ways, each with its five status values; BUSY falls with them. -/
def Obligations.CommandsCompleteInThreeWays : Prop :=
  ∀ (i : Instr) (s : State), i.cmdReg = .format → s.params.wf = true →
    ∃ t, exec i s = .next t ∧ t.busy = false ∧
      ((t.status = 0x00000012 ∧ t.error = 0 ∧ t.errinfo = 0 ∧ t.outAddr = s.dstAddr
          ∧ t.outLen.toNat = 3 * s.w * s.h)
        ∨ (t.status = 0x00000022 ∧ t.error = 0 ∧ t.errinfo = 0 ∧ t.outAddr = s.srcAddr ∧ t.outLen = s.srcLen)
        ∨ (t.status = 0x00000036 ∧ (t.error = 1 ∨ t.error = 2 ∨ t.error = 3 ∨ t.error = 4) ∧ t.errinfo = s.format
            ∧ t.outAddr = 0 ∧ t.outLen = 0))

/-- A command changes no operand register, no parameter and nothing on the host's side (R132); START too. -/
def Obligations.CommandsKeepTheOperands : Prop :=
  ∀ (i : Instr) (s t : State), exec i s = .next t → SameOperands s t ∧ SameSurroundings s t

/-- Memory after a command: unchanged when it did not end with KIND = RGB; otherwise unchanged outside the destination
range when the ranges share no byte, and outside both ranges when they do (R47, R67, R277; the last clause is the model's
choice, notes/assumptions/5.md). -/
def Obligations.CommandsWriteOnlyTheirRange : Prop :=
  ∀ (i : Instr) (s t : State), i.cmdReg = .format → exec i s = .next t →
    (t.status ≠ 0x00000012 → t.mem = s.mem)
    ∧ ∀ a, (a < s.dstAddr.toNat ∨ s.dstAddr.toNat + 3 * s.w * s.h ≤ a) →
        (RangesApart s ∨ a < s.srcAddr.toNat ∨ s.srcAddr.toNat + s.srcLen.toNat ≤ a) →
        Memory.read t.mem a = Memory.read s.mem a

/-- The status registers at completion do not depend on memory, nor on whether the host kept its duties (R272). -/
def Obligations.StatusDoesNotDependOnMemory : Prop :=
  ∀ (i : Instr) (s : State) (m : Memory) (disturbed : Bool), i.cmdReg = .format →
    ∃ t t', exec i s = .next t ∧ exec i { s with mem := m, srcDisturbed := disturbed } = .next t' ∧ SameStatus t t'

/-- R18: the outcome of a command is a function of the six operands and of the source bytes alone. -/
def Obligations.OutcomeDependsOnOperandsAndSourceOnly : Prop :=
  ∀ (i : Instr) (s1 s2 : State), i.cmdReg = .format → SameOperands s1 s2 → s1.params = s2.params →
    Memory.wf s1.mem = true → Memory.wf s2.mem = true → RangesApart s1 → s1.srcDisturbed = false →
    s2.srcDisturbed = false → (∀ k, k < s1.srcLen.toNat → s1.src k = s2.src k) →
    ∃ t1 t2, exec i s1 = .next t1 ∧ exec i s2 = .next t2 ∧ SameStatus t1 t2
      ∧ (t1.status = 0x00000012 → ∀ j, j < 3 * s1.w * s1.h → dst s1 t1 j = dst s2 t2 j)

/-! ### The whole machine -/

/-- The invariant holds after reset: registers 0 (R50), memory canonical (the form is the model's choice,
notes/assumptions/2.md). -/
def Obligations.ResetMeetsTheInvariant : Prop := Safety.Inv State.reset

/-- Every step keeps the invariant: only the five STATUS values occur, each with its result registers (R30 to R33), the
error code explains the tag it reports (R270, R275), and memory stays inside the address space (R72) and canonical. The
canonical form and the mark of a disturbed source are the model's choices (notes/assumptions/2.md and 6.md). -/
def Obligations.EveryStepKeepsTheInvariant : Prop := ∀ s t : State, Safety.Inv s → step s = .next t → Safety.Inv t

/-- Reset leaves every register 0 and no command in flight; memory is unchanged, but for the destination range of a
command it abandons (R50, R301). -/
def Obligations.HardwareResetClearsTheRegisters : Prop :=
  ∀ (s : State) (rest : List Input), s.inputs = .reset :: rest →
    ∃ t, step s = .next t ∧ (∀ off, t.regRead off = 0) ∧ t.busy = false ∧ t.params = s.params ∧ t.inputs = rest
      ∧ (s.busy = false → t.mem = s.mem)
      ∧ ∀ a, s.inDestination a = false → Memory.read t.mem a = Memory.read s.mem a

/-- A write to a register other than CTRL: while BUSY = 1 it changes nothing; while BUSY = 0 an operand register takes the
value, a read-only register and an offset without a register do not change, and nothing else changes
(R20, R21, R22 to R26). -/
def Obligations.RegisterWritesReachOnlyIdleOperands : Prop :=
  ∀ (s : State) (off : BitVec 4) (data : Word) (rest : List Input), s.inputs = .regWrite off data :: rest → off ≠ 6 →
    (s.busy = true ∨ 6 < off.toNat → step s = .next { s with inputs := rest })
    ∧ (s.busy = false → off.toNat < 6 →
        ∃ t, step s = .next t ∧ t.regRead off = data ∧ (∀ off', off' ≠ off → t.regRead off' = s.regRead off')
          ∧ t.mem = s.mem ∧ t.params = s.params ∧ t.inputs = rest ∧ t.hostData = s.hostData)

/-- A register read gives the host the register and changes nothing else; CTRL and the offsets 0x30 to 0x3C give 0
(R20, R21, R28). -/
def Obligations.RegisterReadsChangeNothing : Prop :=
  ∀ (s : State) (off : BitVec 4) (rest : List Input), s.inputs = .regRead off :: rest →
    step s = .next { s with inputs := rest, hostData := s.regRead off }
    ∧ (off = 6 ∨ 11 < off.toNat → s.regRead off = 0)
    ∧ s.regRead 0 = s.format ∧ s.regRead 1 = s.width ∧ s.regRead 2 = s.height ∧ s.regRead 3 = s.srcAddr
    ∧ s.regRead 4 = s.srcLen ∧ s.regRead 5 = s.dstAddr ∧ s.regRead 7 = s.status ∧ s.regRead 8 = s.error
    ∧ s.regRead 9 = s.errinfo ∧ s.regRead 10 = s.outAddr ∧ s.regRead 11 = s.outLen

/-- While BUSY = 1, in a state the invariant allows, STATUS reads 1 and the four result registers read 0 (R252). -/
def Obligations.BusyStatusReadsAsOne : Prop :=
  ∀ s : State, Safety.Inv s → s.busy = true →
    s.regRead 7 = 1 ∧ s.regRead 8 = 0 ∧ s.regRead 9 = 0 ∧ s.regRead 10 = 0 ∧ s.regRead 11 = 0

/-- Only a host write while BUSY = 0, and reset, change an operand register (R26, R132). -/
def Obligations.OperandsChangeOnlyByIdleWritesOrReset : Prop :=
  ∀ s t : State, step s = .next t → ¬SameOperands s t →
    (∃ off data rest, s.inputs = .regWrite off data :: rest ∧ off.toNat < 6 ∧ s.busy = false)
      ∨ ∃ rest, s.inputs = .reset :: rest

/-- The status registers change at an accepted START, at a completion and at reset, and at no other step (R34, R50). -/
def Obligations.StatusChangesOnlyAtStartCompletionReset : Prop :=
  ∀ s t : State, step s = .next t → ¬SameStatus s t →
    (s.busy = false ∧ t.status = 1 ∧ ResultsClear t
        ∧ ∃ data rest, s.inputs = .regWrite 6 data :: rest ∧ data.getLsbD 0 = true)
      ∨ (s.busy = true ∧ t.busy = false ∧ t.done = true ∧ (s.inputs = [] ∨ ∃ rest, s.inputs = .pdc :: rest))
      ∨ ∃ rest, s.inputs = .reset :: rest

/-- A command in flight ends at the block's turn, with DONE set, or by reset, and in no other way (R254, R255, R301;
that one turn completes it is notes/assumptions/4.md). -/
def Obligations.CommandsEndOnlyByCompletionOrReset : Prop :=
  (∀ s t : State, s.busy = true → step s = .next t → t.busy = false →
      (t.done = true ∧ (s.inputs = [] ∨ ∃ rest, s.inputs = .pdc :: rest)) ∨ ∃ rest, s.inputs = .reset :: rest)
    ∧ ∀ s : State, s.busy = true → (s.inputs = [] ∨ ∃ rest, s.inputs = .pdc :: rest) →
        ∃ t, step s = .next t ∧ t.busy = false ∧ t.done = true

/-- A byte of memory changes only by another agent's write to it, by a completing raster command in its destination range
(with overlapping ranges, in either), or by a reset that abandons a command, in its destination range
(R47, R67, R277, R301; the free bytes are notes/assumptions/5.md, 6.md and 8.md). -/
def Obligations.MemoryChangesOnlyByItsWriters : Prop :=
  ∀ (s t : State) (a : Nat), step s = .next t → Memory.read t.mem a ≠ Memory.read s.mem a →
    (∃ addr byte rest, s.inputs = .memWrite addr byte :: rest ∧ addr.toNat = a)
      ∨ (s.busy = true ∧ (s.inputs = [] ∨ ∃ rest, s.inputs = .pdc :: rest) ∧ s.producesRaster = true
          ∧ (s.inDestination a = true ∨ (s.rangesOverlap = true ∧ s.inSource a = true)))
      ∨ (s.busy = true ∧ (∃ rest, s.inputs = .reset :: rest) ∧ s.inDestination a = true)

/-- A memory write by another agent, inside the address space and not into the destination range of a command in flight,
stores its byte and changes no other byte and no register (R258, R305); the mark it leaves is the model's own
(notes/assumptions/6.md). -/
def Obligations.HostWritesReachMemory : Prop :=
  ∀ (s : State) (addr : Word) (byte : Byte) (rest : List Input), s.inputs = .memWrite addr byte :: rest →
    Memory.wf s.mem = true → addr.toNat < 2 ^ s.params.aw → (s.busy = true → s.inDestination addr.toNat = false) →
    ∃ t, step s = .next t ∧ Memory.read t.mem addr.toNat = byte
      ∧ (∀ a, a ≠ addr.toNat → Memory.read t.mem a = Memory.read s.mem a) ∧ (∀ off, t.regRead off = s.regRead off)
      ∧ (t.srcDisturbed = true ↔ s.srcDisturbed = true ∨ (s.busy = true ∧ s.inSource addr.toNat = true))

/-- A memory read by the host inside the address space changes no register and no memory; outside the destination range of
a command in flight it gives the byte (R258, R307). -/
def Obligations.HostReadsSeeMemory : Prop :=
  ∀ (s : State) (addr : Word) (rest : List Input), s.inputs = .memRead addr :: rest → addr.toNat < 2 ^ s.params.aw →
    ∃ t, step s = .next t ∧ t.mem = s.mem ∧ (∀ off, t.regRead off = s.regRead off) ∧ t.srcDisturbed = s.srcDisturbed
      ∧ ((s.busy = true → s.inDestination addr.toNat = false) →
          t.hostData = BitVec.setWidth 32 (Memory.read s.mem addr.toNat) ∧ t.freeCount = s.freeCount)

/-- The machine stops in two cases only: a fault for a memory access outside the address space, and a refusal for a memory
write into the destination range of a command in flight (the model's choices, notes/assumptions/7.md and 15.md). -/
def Obligations.OnlyTwoThingsStopTheMachine : Prop :=
  ∀ s : State,
    (∀ f, step s = .fault f ↔
      f = .noSuchAddress ∧ ∃ addr rest, 2 ^ s.params.aw ≤ addr.toNat
        ∧ ((∃ byte, s.inputs = .memWrite addr byte :: rest) ∨ s.inputs = .memRead addr :: rest))
    ∧ ∀ r, step s = .refused r ↔
      r = .destinationWriteWhileBusy ∧ s.busy = true ∧ ∃ addr byte rest, s.inputs = .memWrite addr byte :: rest
        ∧ addr.toNat < 2 ^ s.params.aw ∧ s.inDestination addr.toNat = true

/-- A host that keeps R305 and R307 inside the address space never stops the machine. -/
def Obligations.DutifulHostsNeverStopTheMachine : Prop :=
  ∀ s : State,
    (∀ input rest, s.inputs = input :: rest → dutifulInput s input = true
      ∧ ∀ addr byte, input = .memWrite addr byte ∨ input = .memRead addr → addr.toNat < 2 ^ s.params.aw) →
    ∃ t, step s = .next t

/-- Two canonical memories that read alike everywhere are the same list (the model's representation,
notes/assumptions/2.md). -/
def Obligations.CanonicalMemoriesAreEqualWhenTheyReadAlike : Prop :=
  ∀ m m' : Memory, Memory.wf m = true → Memory.wf m' = true → (∀ a, Memory.read m a = Memory.read m' a) → m = m'
end

