-- ==== Sys2Proof/Laws/Decode.lean ====
section
/-! SUPPORT. The decoder on a word given as its four bytes, and what each row of the command table selects. -/

namespace Sys2Proof

/-! ### Words as bytes -/

theorem word_eq_bytes (w : Word) :
    w.extractLsb' 24 8 ++ w.extractLsb' 16 8 ++ w.extractLsb' 8 8 ++ w.extractLsb' 0 8 = w := by
  ext k hk
  simp only [BitVec.getElem_append, BitVec.getElem_extractLsb']
  repeat' split
  all_goals (rw [← BitVec.getLsbD_eq_getElem]; congr 1; omega)

theorem exists_bytes (w : Word) : ∃ b3 b2 b1 b0 : Byte, w = b3 ++ b2 ++ b1 ++ b0 :=
  ⟨_, _, _, _, (word_eq_bytes w).symm⟩

theorem append_eq_append_iff {m n : Nat} (a a' : BitVec m) (b b' : BitVec n) :
    a ++ b = a' ++ b' ↔ a = a' ∧ b = b' := by
  constructor
  · intro h
    have h1 := congrArg (fun z => BitVec.extractLsb' n m z) h
    have h2 := congrArg (fun z => BitVec.extractLsb' 0 n z) h
    simp only [BitVec.extractLsb'_append_eq_left, BitVec.extractLsb'_append_eq_right] at h1 h2
    exact ⟨h1, h2⟩
  · rintro ⟨rfl, rfl⟩; rfl

theorem bytes_eq_iff (b3 b2 b1 b0 c3 c2 c1 c0 : Byte) :
    (b3 ++ b2 ++ b1 ++ b0 : Word) = c3 ++ c2 ++ c1 ++ c0 ↔ b3 = c3 ∧ b2 = c2 ∧ b1 = c1 ∧ b0 = c0 := by
  rw [append_eq_append_iff, append_eq_append_iff, append_eq_append_iff]
  tauto

@[simp] theorem bytesOfWord_bytes (b3 b2 b1 b0 : Byte) : bytesOfWord (b3 ++ b2 ++ b1 ++ b0) = [b0, b1, b2, b3] := by
  simp only [bytesOfWord, List.cons.injEq, and_true]
  refine ⟨?_, ?_, ?_, ?_⟩ <;>
  · ext k hk
    simp only [BitVec.getElem_extractLsb', BitVec.getLsbD_append]
    repeat' split
    all_goals first
      | omega
      | (rw [← BitVec.getLsbD_eq_getElem]; congr 1; omega)

theorem decode_bytesOfWord (reg : CmdReg) (w : Word) : decode reg (bytesOfWord w) = decodeWord reg w := by
  obtain ⟨b3, b2, b1, b0, rfl⟩ := exists_bytes w
  simp [decode]

/-! ### The table's tests on bytes -/

theorem and_all_byte (b : Byte) : b &&& 255#8 = b := by
  rw [show (255#8) = BitVec.allOnes 8 by decide, BitVec.and_allOnes]

/-- The test of a row whose mask has all bits (rows 1 to 6). -/
theorem hits_full_iff (b3 b2 b1 b0 c : Byte) (f : Word → Instr) :
    FormatRow.hits ⟨0#8 ++ 0#8 ++ 0#8 ++ c, 0xFFFFFFFF#32, f⟩ (b3 ++ b2 ++ b1 ++ b0) = true ↔
      b3 = 0 ∧ b2 = 0 ∧ b1 = 0 ∧ b0 = c := by
  rw [FormatRow.hits, show (0xFFFFFFFF#32) = 255#8 ++ 255#8 ++ 255#8 ++ 255#8 by decide, beq_iff_eq,
    BitVec.and_append, BitVec.and_append, BitVec.and_append, bytes_eq_iff]
  simp [and_all_byte]

/-- The test of a Bayer row of one legal depth (rows 7 to 9). -/
theorem hits_bayer_iff (b3 b2 b1 b0 d : Byte) (f : Word → Instr) :
    FormatRow.hits ⟨0#8 ++ 0#8 ++ d ++ 7#8, 0xFF00FFFF#32, f⟩ (b3 ++ b2 ++ b1 ++ b0) = true ↔
      b3 = 0 ∧ b1 = d ∧ b0 = 7 := by
  rw [FormatRow.hits, show (0xFF00FFFF#32) = 255#8 ++ 0#8 ++ 255#8 ++ 255#8 by decide, beq_iff_eq,
    BitVec.and_append, BitVec.and_append, BitVec.and_append, bytes_eq_iff]
  simp [and_all_byte]

/-- The test of the row for any other depth (row 10). -/
theorem hits_badBps_iff (b3 b2 b1 b0 : Byte) (f : Word → Instr) :
    FormatRow.hits ⟨0#8 ++ 0#8 ++ 0#8 ++ 7#8, 0xFF0000FF#32, f⟩ (b3 ++ b2 ++ b1 ++ b0) = true ↔
      b3 = 0 ∧ b0 = 7 := by
  rw [FormatRow.hits, show (0xFF0000FF#32) = 255#8 ++ 0#8 ++ 0#8 ++ 255#8 by decide, beq_iff_eq,
    BitVec.and_append, BitVec.and_append, BitVec.and_append, bytes_eq_iff]
  simp [and_all_byte]

/-! ### Fields of a word given as bytes -/

/-- The four characters of a PATTERN byte. -/
def patternOfByte (b : Byte) : Pattern :=
  ⟨patCharOfCode (b.extractLsb' 0 2), patCharOfCode (b.extractLsb' 2 2), patCharOfCode (b.extractLsb' 4 2),
    patCharOfCode (b.extractLsb' 6 2)⟩

theorem extract_pattern_byte (b3 b2 b1 b0 : Byte) (k : Nat) (hk : k + 2 ≤ 8) :
    (b3 ++ b2 ++ b1 ++ b0 : Word).extractLsb' (16 + k) 2 = b2.extractLsb' k 2 := by
  ext j hj
  simp only [BitVec.getElem_extractLsb', BitVec.getLsbD_append]
  repeat' split
  all_goals first
    | omega
    | (congr 1; omega)

theorem patternOf_bytes (b3 b2 b1 b0 : Byte) : patternOf (b3 ++ b2 ++ b1 ++ b0) = patternOfByte b2 := by
  simp only [patternOf, patternOfByte]
  rw [← extract_pattern_byte b3 b2 b1 b0 0 (by omega), ← extract_pattern_byte b3 b2 b1 b0 2 (by omega),
    ← extract_pattern_byte b3 b2 b1 b0 4 (by omega), ← extract_pattern_byte b3 b2 b1 b0 6 (by omega)]

theorem bpsOf_bytes (b3 b2 b1 b0 : Byte) : bpsOf (b3 ++ b2 ++ b1 ++ b0) = b1 := by
  ext j hj
  simp only [bpsOf, BitVec.getElem_extractLsb', BitVec.getLsbD_append]
  repeat' split
  all_goals first
    | omega
    | (rw [← BitVec.getLsbD_eq_getElem]; congr 1; omega)

@[simp] theorem patCharOfCode_code (c : PatChar) : patCharOfCode (codeOfPatChar c) = c := by cases c <;> rfl

@[simp] theorem code_patCharOfCode (c : BitVec 2) : codeOfPatChar (patCharOfCode c) = c := by
  revert c; decide

@[simp] theorem patternOfByte_patternByte (pat : Pattern) : patternOfByte (patternByte pat) = pat := by
  obtain ⟨c0, c1, c2, c3⟩ := pat
  cases c0 <;> cases c1 <;> cases c2 <;> cases c3 <;> rfl

@[simp] theorem patternByte_patternOfByte (byte : Byte) : patternByte (patternOfByte byte) = byte := by
  revert byte; decide

/-! ### What the decoder answers -/

/-- The command of a FORMAT word given as its four bytes: one case for each row of R95, in its order. -/
theorem decodeFormat_bytes (b3 b2 b1 b0 : Byte) :
    decodeFormat (b3 ++ b2 ++ b1 ++ b0) =
      if b3 = 0 ∧ b2 = 0 ∧ b1 = 0 ∧ b0 = 1 then .decYuv422
      else if b3 = 0 ∧ b2 = 0 ∧ b1 = 0 ∧ b0 = 2 then .decRgb24
      else if b3 = 0 ∧ b2 = 0 ∧ b1 = 0 ∧ b0 = 3 then .decBgr24
      else if b3 = 0 ∧ b2 = 0 ∧ b1 = 0 ∧ b0 = 4 then .decArgb32
      else if b3 = 0 ∧ b2 = 0 ∧ b1 = 0 ∧ b0 = 5 then .decXrgb32
      else if b3 = 0 ∧ b2 = 0 ∧ b1 = 0 ∧ b0 = 6 then .decMjpeg
      else if b3 = 0 ∧ b1 = 8 ∧ b0 = 7 then .decBayer8 (patternOfByte b2)
      else if b3 = 0 ∧ b1 = 10 ∧ b0 = 7 then .decBayer10 (patternOfByte b2)
      else if b3 = 0 ∧ b1 = 12 ∧ b0 = 7 then .decBayer12 (patternOfByte b2)
      else if b3 = 0 ∧ b0 = 7 then .decBayerBadBps b1 (patternOfByte b2)
      else .decUnrecognised (b3 ++ b2 ++ b1 ++ b0) := by
  rw [decodeFormat, formatRows,
    show (0x00000001#32) = 0#8 ++ 0#8 ++ 0#8 ++ 1#8 by decide, show (0x00000002#32) = 0#8 ++ 0#8 ++ 0#8 ++ 2#8 by decide,
    show (0x00000003#32) = 0#8 ++ 0#8 ++ 0#8 ++ 3#8 by decide, show (0x00000004#32) = 0#8 ++ 0#8 ++ 0#8 ++ 4#8 by decide,
    show (0x00000005#32) = 0#8 ++ 0#8 ++ 0#8 ++ 5#8 by decide, show (0x00000006#32) = 0#8 ++ 0#8 ++ 0#8 ++ 6#8 by decide,
    show (0x00000807#32) = 0#8 ++ 0#8 ++ 8#8 ++ 7#8 by decide, show (0x00000A07#32) = 0#8 ++ 0#8 ++ 10#8 ++ 7#8 by decide,
    show (0x00000C07#32) = 0#8 ++ 0#8 ++ 12#8 ++ 7#8 by decide, show (0x00000007#32) = 0#8 ++ 0#8 ++ 0#8 ++ 7#8 by decide]
  simp only [selectRow, hits_full_iff, hits_bayer_iff, hits_badBps_iff, patternOf_bytes, bpsOf_bytes]
  rfl

/-- The tag of a Bayer format selects the row of its depth (R95 rows 7 to 10, R102). -/
theorem decodeFormat_bayerTag (bps : BitVec 8) (pat : Pattern) :
    decodeFormat (bayerTag bps pat) =
      if bps = 8 then .decBayer8 pat else if bps = 10 then .decBayer10 pat else if bps = 12 then .decBayer12 pat
      else .decBayerBadBps bps pat := by
  rw [bayerTag, decodeFormat_bytes]
  simp

/-! ### Recognised tags -/

theorem extract_low_byte (b3 b2 b1 b0 : Byte) : (b3 ++ b2 ++ b1 ++ b0 : Word).extractLsb' 0 8 = b0 := by
  ext j hj
  simp only [BitVec.getElem_extractLsb', BitVec.getLsbD_append]
  repeat' split
  all_goals first
    | omega
    | (rw [← BitVec.getLsbD_eq_getElem]; congr 1; omega)

theorem extract_high_byte (b3 b2 b1 b0 : Byte) : (b3 ++ b2 ++ b1 ++ b0 : Word).extractLsb' 24 8 = b3 := by
  ext j hj
  simp only [BitVec.getElem_extractLsb', BitVec.getLsbD_append]
  repeat' split
  all_goals first
    | omega
    | (rw [← BitVec.getLsbD_eq_getElem]; congr 1; omega)

theorem word_one_to_six_iff (w : Word) :
    (1 ≤ w.toNat ∧ w.toNat ≤ 6) ↔
      w = 0#8 ++ 0#8 ++ 0#8 ++ 1#8 ∨ w = 0#8 ++ 0#8 ++ 0#8 ++ 2#8 ∨ w = 0#8 ++ 0#8 ++ 0#8 ++ 3#8
        ∨ w = 0#8 ++ 0#8 ++ 0#8 ++ 4#8 ∨ w = 0#8 ++ 0#8 ++ 0#8 ++ 5#8 ∨ w = 0#8 ++ 0#8 ++ 0#8 ++ 6#8 := by
  simp only [← BitVec.toNat_inj, show (0#8 ++ 0#8 ++ 0#8 ++ 1#8 : Word).toNat = 1 by decide,
    show (0#8 ++ 0#8 ++ 0#8 ++ 2#8 : Word).toNat = 2 by decide, show (0#8 ++ 0#8 ++ 0#8 ++ 3#8 : Word).toNat = 3 by decide,
    show (0#8 ++ 0#8 ++ 0#8 ++ 4#8 : Word).toNat = 4 by decide, show (0#8 ++ 0#8 ++ 0#8 ++ 5#8 : Word).toNat = 5 by decide,
    show (0#8 ++ 0#8 ++ 0#8 ++ 6#8 : Word).toNat = 6 by decide]
  omega

/-- Recognised tags by their bytes: 1 to 6, or a Bayer tag (R96). -/
theorem recognisedTag_bytes (b3 b2 b1 b0 : Byte) :
    recognisedTag (b3 ++ b2 ++ b1 ++ b0) = true ↔
      (b3 = 0 ∧ b2 = 0 ∧ b1 = 0 ∧ (b0 = 1 ∨ b0 = 2 ∨ b0 = 3 ∨ b0 = 4 ∨ b0 = 5 ∨ b0 = 6)) ∨ (b3 = 0 ∧ b0 = 7) := by
  rw [recognisedTag, Bool.or_eq_true, Bool.and_eq_true, Bool.and_eq_true, decide_eq_true_eq, decide_eq_true_eq,
    word_one_to_six_iff, extract_low_byte, extract_high_byte, beq_iff_eq, beq_iff_eq]
  simp only [bytes_eq_iff]
  rw [show (7 : Byte) = 7#8 from rfl, show (0 : Byte) = 0#8 from rfl]
  tauto

/-- A word whose low byte is 7 and whose high byte is 0 is the tag of its depth and pattern. -/
theorem bytes_eq_bayerTag (b2 b1 : Byte) : (0#8 ++ b2 ++ b1 ++ 7#8 : Word) = bayerTag b1 (patternOfByte b2) := by
  rw [bayerTag, patternByte_patternOfByte]

/-- Every FORMAT value is one of the six simple tags, a Bayer tag, or unrecognised (R95, R96). -/
theorem decodeFormat_cases (tag : Word) :
    (tag = 1 ∧ decodeFormat tag = .decYuv422) ∨ (tag = 2 ∧ decodeFormat tag = .decRgb24)
      ∨ (tag = 3 ∧ decodeFormat tag = .decBgr24) ∨ (tag = 4 ∧ decodeFormat tag = .decArgb32)
      ∨ (tag = 5 ∧ decodeFormat tag = .decXrgb32) ∨ (tag = 6 ∧ decodeFormat tag = .decMjpeg)
      ∨ (∃ bps pat, tag = bayerTag bps pat) ∨ (recognisedTag tag = false ∧ decodeFormat tag = .decUnrecognised tag) := by
  obtain ⟨b3, b2, b1, b0, rfl⟩ := exists_bytes tag
  by_cases hr : recognisedTag (b3 ++ b2 ++ b1 ++ b0) = true
  · rcases (recognisedTag_bytes b3 b2 b1 b0).1 hr with ⟨rfl, rfl, rfl, h⟩ | ⟨rfl, rfl⟩
    · rcases h with rfl | rfl | rfl | rfl | rfl | rfl
      · exact .inl (by decide)
      · exact .inr (.inl (by decide))
      · exact .inr (.inr (.inl (by decide)))
      · exact .inr (.inr (.inr (.inl (by decide))))
      · exact .inr (.inr (.inr (.inr (.inl (by decide)))))
      · exact .inr (.inr (.inr (.inr (.inr (.inl (by decide))))))
    · exact .inr (.inr (.inr (.inr (.inr (.inr (.inl ⟨b1, patternOfByte b2, bytes_eq_bayerTag b2 b1⟩))))))
  · have hn := (recognisedTag_bytes b3 b2 b1 b0).not.1 hr
    refine .inr (.inr (.inr (.inr (.inr (.inr (.inr ⟨by simpa using hr, ?_⟩))))))
    rw [decodeFormat_bytes]
    repeat rw [if_neg (by tauto)]

/-- The tag of a Bayer format is recognised (R96). -/
theorem recognisedTag_bayerTag (bps : BitVec 8) (pat : Pattern) : recognisedTag (bayerTag bps pat) = true := by
  rw [bayerTag]
  exact (recognisedTag_bytes _ _ _ _).2 (.inr ⟨rfl, rfl⟩)

/-- A FORMAT value is unrecognised exactly when it is no recognised tag (R96). -/
theorem decodeFormat_unrecognised_iff (tag : Word) :
    decodeFormat tag = .decUnrecognised tag ↔ recognisedTag tag = false := by
  rcases decodeFormat_cases tag with ⟨rfl, h⟩ | ⟨rfl, h⟩ | ⟨rfl, h⟩ | ⟨rfl, h⟩ | ⟨rfl, h⟩ | ⟨rfl, h⟩ | ⟨bps, pat, rfl⟩ | ⟨hr, h⟩
  · exact iff_of_false (by rw [h]; exact Instr.noConfusion) (by decide)
  · exact iff_of_false (by rw [h]; exact Instr.noConfusion) (by decide)
  · exact iff_of_false (by rw [h]; exact Instr.noConfusion) (by decide)
  · exact iff_of_false (by rw [h]; exact Instr.noConfusion) (by decide)
  · exact iff_of_false (by rw [h]; exact Instr.noConfusion) (by decide)
  · exact iff_of_false (by rw [h]; exact Instr.noConfusion) (by decide)
  · refine iff_of_false ?_ (by rw [recognisedTag_bayerTag]; decide)
    rw [decodeFormat_bayerTag]
    repeat' split
    all_goals exact Instr.noConfusion
  · exact iff_of_true h hr

end Sys2Proof
end

