-- ==== Sys2Proof/Laws/Memory.lean ====
section
/-! SUPPORT. What a read gives after a write, and that every memory operation keeps the canonical form. -/

namespace Sys2Proof.Machine

/-! ### One byte -/

theorem Memory.wf_cons (a : Nat) (v : Byte) (rest : Memory) :
    Memory.wf ((a, v) :: rest) = true ↔
      v ≠ unlistedByte ∧ (∀ c ∈ rest, a < c.1) ∧ Memory.wf rest = true := by
  simp [Memory.wf, and_assoc]

theorem Memory.read_of_lt {m : Memory} {a : Nat} (h : ∀ c ∈ m, a < c.1) : Memory.read m a = unlistedByte := by
  induction m with
  | nil => rfl
  | cons c rest ih =>
    have hc := h c (by simp)
    rw [Memory.read, if_neg (by omega)]
    exact ih fun d hd => h d (by simp [hd])

theorem Memory.read_write_other (m : Memory) (a : Nat) (v : Byte) {b : Nat} (hb : b ≠ a) :
    Memory.read (Memory.write m a v) b = Memory.read m b := by
  induction m with
  | nil => unfold Memory.write; split <;> simp [Memory.read, hb]
  | cons c rest ih =>
    obtain ⟨x, w⟩ := c
    unfold Memory.write
    split
    · split <;> simp [Memory.read, hb]
    · split
      · rename_i _ hx
        subst hx
        split <;> simp [Memory.read, hb]
      · simp [Memory.read, ih]

theorem Memory.read_write_same {m : Memory} (hm : Memory.wf m = true) (a : Nat) (v : Byte) :
    Memory.read (Memory.write m a v) a = v := by
  induction m with
  | nil => unfold Memory.write; split <;> simp_all [Memory.read]
  | cons c rest ih =>
    obtain ⟨x, w⟩ := c
    rw [Memory.wf_cons] at hm
    unfold Memory.write
    split
    · rename_i hx
      split
      · rename_i hv
        rw [hv]
        refine Memory.read_of_lt fun d hd => ?_
        rcases List.mem_cons.1 hd with rfl | hd
        · exact hx
        · have := hm.2.1 d hd; omega
      · simp [Memory.read]
    · split
      · rename_i _ hx
        subst hx
        split
        · rename_i hv
          rw [hv, Memory.read_of_lt hm.2.1]
        · simp [Memory.read]
      · rename_i _ hx
        simp [Memory.read, hx, ih hm.2.2]

theorem Memory.mem_write {m : Memory} {a : Nat} {v : Byte} {c : Host.Cell} (h : c ∈ Memory.write m a v) :
    (c = (a, v) ∧ v ≠ unlistedByte) ∨ c ∈ m := by
  induction m with
  | nil => unfold Memory.write at h; split at h <;> simp_all
  | cons d rest ih =>
    obtain ⟨x, w⟩ := d
    unfold Memory.write at h
    split at h
    · split at h
      · exact .inr h
      · rcases List.mem_cons.1 h with h | h
        · exact .inl ⟨h, ‹_›⟩
        · exact .inr h
    · split at h
      · split at h
        · exact .inr (List.mem_cons_of_mem _ h)
        · rcases List.mem_cons.1 h with h | h
          · exact .inl ⟨h, ‹_›⟩
          · exact .inr (List.mem_cons_of_mem _ h)
      · rcases List.mem_cons.1 h with h | h
        · exact .inr (by simp [h])
        · rcases ih h with h | h
          · exact .inl h
          · exact .inr (List.mem_cons_of_mem _ h)

theorem Memory.wf_write {m : Memory} (hm : Memory.wf m = true) (a : Nat) (v : Byte) :
    Memory.wf (Memory.write m a v) = true := by
  induction m with
  | nil => unfold Memory.write; split <;> simp_all [Memory.wf]
  | cons d rest ih =>
    obtain ⟨x, w⟩ := d
    have h := (Memory.wf_cons _ _ _).1 hm
    unfold Memory.write
    split
    · rename_i hx
      split
      · exact hm
      · refine (Memory.wf_cons _ _ _).2 ⟨‹_›, fun c hc => ?_, hm⟩
        rcases List.mem_cons.1 hc with rfl | hc
        · exact hx
        · have := h.2.1 c hc; omega
    · split
      · rename_i _ hx
        subst hx
        split
        · exact h.2.2
        · exact (Memory.wf_cons _ _ _).2 ⟨‹_›, h.2⟩
      · rename_i hx hx'
        refine (Memory.wf_cons _ _ _).2 ⟨h.1, fun c hc => ?_, ih h.2.2⟩
        rcases Memory.mem_write hc with ⟨rfl, _⟩ | hc
        · show x < a
          omega
        · exact h.2.1 c hc

theorem Memory.below_iff (m : Memory) (n : Nat) : Memory.below m n = true ↔ ∀ c ∈ m, c.1 < n := by
  simp [Memory.below]

theorem Memory.below_write {m : Memory} {a n : Nat} (hm : Memory.below m n = true) (ha : a < n) (v : Byte) :
    Memory.below (Memory.write m a v) n = true := by
  rw [Memory.below_iff] at hm ⊢
  intro c hc
  rcases Memory.mem_write hc with ⟨rfl, _⟩ | hc
  · exact ha
  · exact hm c hc

/-! ### Many bytes -/

theorem Memory.read_writeBytes_outside (m : Memory) (a : Nat) (bytes : List Byte) {b : Nat}
    (hb : b < a ∨ a + bytes.length ≤ b) : Memory.read (Memory.writeBytes m a bytes) b = Memory.read m b := by
  induction bytes generalizing m a with
  | nil => rfl
  | cons v rest ih =>
    simp only [List.length_cons] at hb
    rw [Memory.writeBytes, ih _ _ (by omega), Memory.read_write_other _ _ _ (by omega)]

theorem Memory.wf_writeBytes {m : Memory} (hm : Memory.wf m = true) (a : Nat) (bytes : List Byte) :
    Memory.wf (Memory.writeBytes m a bytes) = true := by
  induction bytes generalizing m a with
  | nil => exact hm
  | cons v rest ih => exact ih (Memory.wf_write hm a v) (a + 1)

theorem Memory.read_writeBytes_inside {m : Memory} (hm : Memory.wf m = true) (a : Nat) (bytes : List Byte) {k : Nat}
    (hk : k < bytes.length) : Memory.read (Memory.writeBytes m a bytes) (a + k) = bytes[k] := by
  induction bytes generalizing m a k with
  | nil => simp at hk
  | cons v rest ih =>
    rw [Memory.writeBytes]
    cases k with
    | zero =>
      rw [Memory.read_writeBytes_outside _ _ _ (by omega)]
      exact Memory.read_write_same hm a v
    | succ k =>
      have := ih (Memory.wf_write hm a v) (a + 1) (k := k) (by simpa using hk)
      rw [show a + (k + 1) = a + 1 + k by omega, this]
      simp

theorem Memory.below_writeBytes {m : Memory} {a n : Nat} {bytes : List Byte} (hm : Memory.below m n = true)
    (ha : a + bytes.length ≤ n) : Memory.below (Memory.writeBytes m a bytes) n = true := by
  induction bytes generalizing m a with
  | nil => exact hm
  | cons v rest ih =>
    simp only [List.length_cons] at ha
    exact ih (Memory.below_write hm (by omega) v) (by omega)

/-! ### Any value -/

theorem Memory.read_writeFree_outside (m : Memory) (a len n : Nat) {b : Nat} (hb : b < a ∨ a + len ≤ b) :
    Memory.read (Memory.writeFree m a len n) b = Memory.read m b :=
  Memory.read_writeBytes_outside m a _ (by simpa using hb)

theorem Memory.wf_writeFree {m : Memory} (hm : Memory.wf m = true) (a len n : Nat) :
    Memory.wf (Memory.writeFree m a len n) = true :=
  Memory.wf_writeBytes hm a _

theorem Memory.read_writeFree_inside {m : Memory} (hm : Memory.wf m = true) (a len n : Nat) {k : Nat} (hk : k < len) :
    Memory.read (Memory.writeFree m a len n) (a + k) = Config.freeByte n (a + k) := by
  rw [Memory.writeFree, Memory.read_writeBytes_inside hm a _ (by simpa using hk)]
  simp

theorem Memory.below_writeFree {m : Memory} {a len n bound : Nat} (hm : Memory.below m bound = true)
    (ha : a + len ≤ bound) : Memory.below (Memory.writeFree m a len n) bound = true :=
  Memory.below_writeBytes hm (by simpa using ha)

end Sys2Proof.Machine
end

