-- ==== Sys2Proof/Laws/State.lean ====
section
/-! SUPPORT. One lemma for each field of State under each update of the shared operations, so that no later proof unfolds
a record update. -/

namespace Sys2Proof.Machine

/-! ### setStatus -/

@[simp] theorem State.setStatus_format (s : State) (st er ei oa ol : Word) :
    (s.setStatus st er ei oa ol).format = s.format := rfl
@[simp] theorem State.setStatus_width (s : State) (st er ei oa ol : Word) :
    (s.setStatus st er ei oa ol).width = s.width := rfl
@[simp] theorem State.setStatus_height (s : State) (st er ei oa ol : Word) :
    (s.setStatus st er ei oa ol).height = s.height := rfl
@[simp] theorem State.setStatus_srcAddr (s : State) (st er ei oa ol : Word) :
    (s.setStatus st er ei oa ol).srcAddr = s.srcAddr := rfl
@[simp] theorem State.setStatus_srcLen (s : State) (st er ei oa ol : Word) :
    (s.setStatus st er ei oa ol).srcLen = s.srcLen := rfl
@[simp] theorem State.setStatus_dstAddr (s : State) (st er ei oa ol : Word) :
    (s.setStatus st er ei oa ol).dstAddr = s.dstAddr := rfl
@[simp] theorem State.setStatus_status (s : State) (st er ei oa ol : Word) :
    (s.setStatus st er ei oa ol).status = st := rfl
@[simp] theorem State.setStatus_error (s : State) (st er ei oa ol : Word) :
    (s.setStatus st er ei oa ol).error = er := rfl
@[simp] theorem State.setStatus_errinfo (s : State) (st er ei oa ol : Word) :
    (s.setStatus st er ei oa ol).errinfo = ei := rfl
@[simp] theorem State.setStatus_outAddr (s : State) (st er ei oa ol : Word) :
    (s.setStatus st er ei oa ol).outAddr = oa := rfl
@[simp] theorem State.setStatus_outLen (s : State) (st er ei oa ol : Word) :
    (s.setStatus st er ei oa ol).outLen = ol := rfl
@[simp] theorem State.setStatus_mem (s : State) (st er ei oa ol : Word) :
    (s.setStatus st er ei oa ol).mem = s.mem := rfl
@[simp] theorem State.setStatus_params (s : State) (st er ei oa ol : Word) :
    (s.setStatus st er ei oa ol).params = s.params := rfl
@[simp] theorem State.setStatus_inputs (s : State) (st er ei oa ol : Word) :
    (s.setStatus st er ei oa ol).inputs = s.inputs := rfl
@[simp] theorem State.setStatus_hostData (s : State) (st er ei oa ol : Word) :
    (s.setStatus st er ei oa ol).hostData = s.hostData := rfl
@[simp] theorem State.setStatus_srcDisturbed (s : State) (st er ei oa ol : Word) :
    (s.setStatus st er ei oa ol).srcDisturbed = false := rfl
@[simp] theorem State.setStatus_freeCount (s : State) (st er ei oa ol : Word) :
    (s.setStatus st er ei oa ol).freeCount = s.freeCount := rfl

/-! ### beginCommand -/

@[simp] theorem State.beginCommand_format (s : State) :
    (s.beginCommand).format = s.format := rfl
@[simp] theorem State.beginCommand_width (s : State) :
    (s.beginCommand).width = s.width := rfl
@[simp] theorem State.beginCommand_height (s : State) :
    (s.beginCommand).height = s.height := rfl
@[simp] theorem State.beginCommand_srcAddr (s : State) :
    (s.beginCommand).srcAddr = s.srcAddr := rfl
@[simp] theorem State.beginCommand_srcLen (s : State) :
    (s.beginCommand).srcLen = s.srcLen := rfl
@[simp] theorem State.beginCommand_dstAddr (s : State) :
    (s.beginCommand).dstAddr = s.dstAddr := rfl
@[simp] theorem State.beginCommand_status (s : State) :
    (s.beginCommand).status = statusBusy := rfl
@[simp] theorem State.beginCommand_error (s : State) :
    (s.beginCommand).error = 0 := rfl
@[simp] theorem State.beginCommand_errinfo (s : State) :
    (s.beginCommand).errinfo = 0 := rfl
@[simp] theorem State.beginCommand_outAddr (s : State) :
    (s.beginCommand).outAddr = 0 := rfl
@[simp] theorem State.beginCommand_outLen (s : State) :
    (s.beginCommand).outLen = 0 := rfl
@[simp] theorem State.beginCommand_mem (s : State) :
    (s.beginCommand).mem = s.mem := rfl
@[simp] theorem State.beginCommand_params (s : State) :
    (s.beginCommand).params = s.params := rfl
@[simp] theorem State.beginCommand_inputs (s : State) :
    (s.beginCommand).inputs = s.inputs := rfl
@[simp] theorem State.beginCommand_hostData (s : State) :
    (s.beginCommand).hostData = s.hostData := rfl
@[simp] theorem State.beginCommand_srcDisturbed (s : State) :
    (s.beginCommand).srcDisturbed = false := rfl
@[simp] theorem State.beginCommand_freeCount (s : State) :
    (s.beginCommand).freeCount = s.freeCount := rfl

/-! ### complete -/

@[simp] theorem State.complete_format (s : State) (kind : ResultKind) (addr len : Word) :
    (s.complete kind addr len).format = s.format := rfl
@[simp] theorem State.complete_width (s : State) (kind : ResultKind) (addr len : Word) :
    (s.complete kind addr len).width = s.width := rfl
@[simp] theorem State.complete_height (s : State) (kind : ResultKind) (addr len : Word) :
    (s.complete kind addr len).height = s.height := rfl
@[simp] theorem State.complete_srcAddr (s : State) (kind : ResultKind) (addr len : Word) :
    (s.complete kind addr len).srcAddr = s.srcAddr := rfl
@[simp] theorem State.complete_srcLen (s : State) (kind : ResultKind) (addr len : Word) :
    (s.complete kind addr len).srcLen = s.srcLen := rfl
@[simp] theorem State.complete_dstAddr (s : State) (kind : ResultKind) (addr len : Word) :
    (s.complete kind addr len).dstAddr = s.dstAddr := rfl
@[simp] theorem State.complete_status (s : State) (kind : ResultKind) (addr len : Word) :
    (s.complete kind addr len).status = statusDone kind := rfl
@[simp] theorem State.complete_error (s : State) (kind : ResultKind) (addr len : Word) :
    (s.complete kind addr len).error = 0 := rfl
@[simp] theorem State.complete_errinfo (s : State) (kind : ResultKind) (addr len : Word) :
    (s.complete kind addr len).errinfo = 0 := rfl
@[simp] theorem State.complete_outAddr (s : State) (kind : ResultKind) (addr len : Word) :
    (s.complete kind addr len).outAddr = addr := rfl
@[simp] theorem State.complete_outLen (s : State) (kind : ResultKind) (addr len : Word) :
    (s.complete kind addr len).outLen = len := rfl
@[simp] theorem State.complete_mem (s : State) (kind : ResultKind) (addr len : Word) :
    (s.complete kind addr len).mem = s.mem := rfl
@[simp] theorem State.complete_params (s : State) (kind : ResultKind) (addr len : Word) :
    (s.complete kind addr len).params = s.params := rfl
@[simp] theorem State.complete_inputs (s : State) (kind : ResultKind) (addr len : Word) :
    (s.complete kind addr len).inputs = s.inputs := rfl
@[simp] theorem State.complete_hostData (s : State) (kind : ResultKind) (addr len : Word) :
    (s.complete kind addr len).hostData = s.hostData := rfl
@[simp] theorem State.complete_srcDisturbed (s : State) (kind : ResultKind) (addr len : Word) :
    (s.complete kind addr len).srcDisturbed = false := rfl
@[simp] theorem State.complete_freeCount (s : State) (kind : ResultKind) (addr len : Word) :
    (s.complete kind addr len).freeCount = s.freeCount := rfl

/-! ### raise -/

@[simp] theorem State.raise_format (s : State) (kind : ErrorKind) (info : Word) :
    (s.raise kind info).format = s.format := rfl
@[simp] theorem State.raise_width (s : State) (kind : ErrorKind) (info : Word) :
    (s.raise kind info).width = s.width := rfl
@[simp] theorem State.raise_height (s : State) (kind : ErrorKind) (info : Word) :
    (s.raise kind info).height = s.height := rfl
@[simp] theorem State.raise_srcAddr (s : State) (kind : ErrorKind) (info : Word) :
    (s.raise kind info).srcAddr = s.srcAddr := rfl
@[simp] theorem State.raise_srcLen (s : State) (kind : ErrorKind) (info : Word) :
    (s.raise kind info).srcLen = s.srcLen := rfl
@[simp] theorem State.raise_dstAddr (s : State) (kind : ErrorKind) (info : Word) :
    (s.raise kind info).dstAddr = s.dstAddr := rfl
@[simp] theorem State.raise_status (s : State) (kind : ErrorKind) (info : Word) :
    (s.raise kind info).status = statusDone .failed := rfl
@[simp] theorem State.raise_error (s : State) (kind : ErrorKind) (info : Word) :
    (s.raise kind info).error = errorWord kind := rfl
@[simp] theorem State.raise_errinfo (s : State) (kind : ErrorKind) (info : Word) :
    (s.raise kind info).errinfo = info := rfl
@[simp] theorem State.raise_outAddr (s : State) (kind : ErrorKind) (info : Word) :
    (s.raise kind info).outAddr = 0 := rfl
@[simp] theorem State.raise_outLen (s : State) (kind : ErrorKind) (info : Word) :
    (s.raise kind info).outLen = 0 := rfl
@[simp] theorem State.raise_mem (s : State) (kind : ErrorKind) (info : Word) :
    (s.raise kind info).mem = s.mem := rfl
@[simp] theorem State.raise_params (s : State) (kind : ErrorKind) (info : Word) :
    (s.raise kind info).params = s.params := rfl
@[simp] theorem State.raise_inputs (s : State) (kind : ErrorKind) (info : Word) :
    (s.raise kind info).inputs = s.inputs := rfl
@[simp] theorem State.raise_hostData (s : State) (kind : ErrorKind) (info : Word) :
    (s.raise kind info).hostData = s.hostData := rfl
@[simp] theorem State.raise_srcDisturbed (s : State) (kind : ErrorKind) (info : Word) :
    (s.raise kind info).srcDisturbed = false := rfl
@[simp] theorem State.raise_freeCount (s : State) (kind : ErrorKind) (info : Word) :
    (s.raise kind info).freeCount = s.freeCount := rfl

/-! ### clearRegisters -/

@[simp] theorem State.clearRegisters_format (s : State) :
    (s.clearRegisters).format = 0 := rfl
@[simp] theorem State.clearRegisters_width (s : State) :
    (s.clearRegisters).width = 0 := rfl
@[simp] theorem State.clearRegisters_height (s : State) :
    (s.clearRegisters).height = 0 := rfl
@[simp] theorem State.clearRegisters_srcAddr (s : State) :
    (s.clearRegisters).srcAddr = 0 := rfl
@[simp] theorem State.clearRegisters_srcLen (s : State) :
    (s.clearRegisters).srcLen = 0 := rfl
@[simp] theorem State.clearRegisters_dstAddr (s : State) :
    (s.clearRegisters).dstAddr = 0 := rfl
@[simp] theorem State.clearRegisters_status (s : State) :
    (s.clearRegisters).status = 0 := rfl
@[simp] theorem State.clearRegisters_error (s : State) :
    (s.clearRegisters).error = 0 := rfl
@[simp] theorem State.clearRegisters_errinfo (s : State) :
    (s.clearRegisters).errinfo = 0 := rfl
@[simp] theorem State.clearRegisters_outAddr (s : State) :
    (s.clearRegisters).outAddr = 0 := rfl
@[simp] theorem State.clearRegisters_outLen (s : State) :
    (s.clearRegisters).outLen = 0 := rfl
@[simp] theorem State.clearRegisters_mem (s : State) :
    (s.clearRegisters).mem = s.mem := rfl
@[simp] theorem State.clearRegisters_params (s : State) :
    (s.clearRegisters).params = s.params := rfl
@[simp] theorem State.clearRegisters_inputs (s : State) :
    (s.clearRegisters).inputs = s.inputs := rfl
@[simp] theorem State.clearRegisters_hostData (s : State) :
    (s.clearRegisters).hostData = s.hostData := rfl
@[simp] theorem State.clearRegisters_srcDisturbed (s : State) :
    (s.clearRegisters).srcDisturbed = false := rfl
@[simp] theorem State.clearRegisters_freeCount (s : State) :
    (s.clearRegisters).freeCount = s.freeCount := rfl

/-! ### storeRaster, abandonCommand, regWrite: the fields they never touch -/

@[simp] theorem State.storeRaster_format (s : State) (out : Nat → Nat → Channel → Byte) :
    (s.storeRaster out).format = s.format := by unfold State.storeRaster; split <;> (try split) <;> rfl
@[simp] theorem State.storeRaster_width (s : State) (out : Nat → Nat → Channel → Byte) :
    (s.storeRaster out).width = s.width := by unfold State.storeRaster; split <;> (try split) <;> rfl
@[simp] theorem State.storeRaster_height (s : State) (out : Nat → Nat → Channel → Byte) :
    (s.storeRaster out).height = s.height := by unfold State.storeRaster; split <;> (try split) <;> rfl
@[simp] theorem State.storeRaster_srcAddr (s : State) (out : Nat → Nat → Channel → Byte) :
    (s.storeRaster out).srcAddr = s.srcAddr := by unfold State.storeRaster; split <;> (try split) <;> rfl
@[simp] theorem State.storeRaster_srcLen (s : State) (out : Nat → Nat → Channel → Byte) :
    (s.storeRaster out).srcLen = s.srcLen := by unfold State.storeRaster; split <;> (try split) <;> rfl
@[simp] theorem State.storeRaster_dstAddr (s : State) (out : Nat → Nat → Channel → Byte) :
    (s.storeRaster out).dstAddr = s.dstAddr := by unfold State.storeRaster; split <;> (try split) <;> rfl
@[simp] theorem State.storeRaster_status (s : State) (out : Nat → Nat → Channel → Byte) :
    (s.storeRaster out).status = s.status := by unfold State.storeRaster; split <;> (try split) <;> rfl
@[simp] theorem State.storeRaster_error (s : State) (out : Nat → Nat → Channel → Byte) :
    (s.storeRaster out).error = s.error := by unfold State.storeRaster; split <;> (try split) <;> rfl
@[simp] theorem State.storeRaster_errinfo (s : State) (out : Nat → Nat → Channel → Byte) :
    (s.storeRaster out).errinfo = s.errinfo := by unfold State.storeRaster; split <;> (try split) <;> rfl
@[simp] theorem State.storeRaster_outAddr (s : State) (out : Nat → Nat → Channel → Byte) :
    (s.storeRaster out).outAddr = s.outAddr := by unfold State.storeRaster; split <;> (try split) <;> rfl
@[simp] theorem State.storeRaster_outLen (s : State) (out : Nat → Nat → Channel → Byte) :
    (s.storeRaster out).outLen = s.outLen := by unfold State.storeRaster; split <;> (try split) <;> rfl
@[simp] theorem State.storeRaster_params (s : State) (out : Nat → Nat → Channel → Byte) :
    (s.storeRaster out).params = s.params := by unfold State.storeRaster; split <;> (try split) <;> rfl
@[simp] theorem State.storeRaster_inputs (s : State) (out : Nat → Nat → Channel → Byte) :
    (s.storeRaster out).inputs = s.inputs := by unfold State.storeRaster; split <;> (try split) <;> rfl
@[simp] theorem State.storeRaster_hostData (s : State) (out : Nat → Nat → Channel → Byte) :
    (s.storeRaster out).hostData = s.hostData := by unfold State.storeRaster; split <;> (try split) <;> rfl
@[simp] theorem State.storeRaster_srcDisturbed (s : State) (out : Nat → Nat → Channel → Byte) :
    (s.storeRaster out).srcDisturbed = s.srcDisturbed := by unfold State.storeRaster; split <;> (try split) <;> rfl

@[simp] theorem State.abandonCommand_format (s : State) :
    (s.abandonCommand).format = s.format := by unfold State.abandonCommand; split <;> rfl
@[simp] theorem State.abandonCommand_width (s : State) :
    (s.abandonCommand).width = s.width := by unfold State.abandonCommand; split <;> rfl
@[simp] theorem State.abandonCommand_height (s : State) :
    (s.abandonCommand).height = s.height := by unfold State.abandonCommand; split <;> rfl
@[simp] theorem State.abandonCommand_srcAddr (s : State) :
    (s.abandonCommand).srcAddr = s.srcAddr := by unfold State.abandonCommand; split <;> rfl
@[simp] theorem State.abandonCommand_srcLen (s : State) :
    (s.abandonCommand).srcLen = s.srcLen := by unfold State.abandonCommand; split <;> rfl
@[simp] theorem State.abandonCommand_dstAddr (s : State) :
    (s.abandonCommand).dstAddr = s.dstAddr := by unfold State.abandonCommand; split <;> rfl
@[simp] theorem State.abandonCommand_status (s : State) :
    (s.abandonCommand).status = s.status := by unfold State.abandonCommand; split <;> rfl
@[simp] theorem State.abandonCommand_error (s : State) :
    (s.abandonCommand).error = s.error := by unfold State.abandonCommand; split <;> rfl
@[simp] theorem State.abandonCommand_errinfo (s : State) :
    (s.abandonCommand).errinfo = s.errinfo := by unfold State.abandonCommand; split <;> rfl
@[simp] theorem State.abandonCommand_outAddr (s : State) :
    (s.abandonCommand).outAddr = s.outAddr := by unfold State.abandonCommand; split <;> rfl
@[simp] theorem State.abandonCommand_outLen (s : State) :
    (s.abandonCommand).outLen = s.outLen := by unfold State.abandonCommand; split <;> rfl
@[simp] theorem State.abandonCommand_params (s : State) :
    (s.abandonCommand).params = s.params := by unfold State.abandonCommand; split <;> rfl
@[simp] theorem State.abandonCommand_inputs (s : State) :
    (s.abandonCommand).inputs = s.inputs := by unfold State.abandonCommand; split <;> rfl
@[simp] theorem State.abandonCommand_hostData (s : State) :
    (s.abandonCommand).hostData = s.hostData := by unfold State.abandonCommand; split <;> rfl
@[simp] theorem State.abandonCommand_srcDisturbed (s : State) :
    (s.abandonCommand).srcDisturbed = s.srcDisturbed := by unfold State.abandonCommand; split <;> rfl

@[simp] theorem State.regWrite_status (s : State) (off : BitVec 4) (data : Word) :
    (s.regWrite off data).status = s.status := by unfold State.regWrite; split <;> (try split) <;> rfl
@[simp] theorem State.regWrite_error (s : State) (off : BitVec 4) (data : Word) :
    (s.regWrite off data).error = s.error := by unfold State.regWrite; split <;> (try split) <;> rfl
@[simp] theorem State.regWrite_errinfo (s : State) (off : BitVec 4) (data : Word) :
    (s.regWrite off data).errinfo = s.errinfo := by unfold State.regWrite; split <;> (try split) <;> rfl
@[simp] theorem State.regWrite_outAddr (s : State) (off : BitVec 4) (data : Word) :
    (s.regWrite off data).outAddr = s.outAddr := by unfold State.regWrite; split <;> (try split) <;> rfl
@[simp] theorem State.regWrite_outLen (s : State) (off : BitVec 4) (data : Word) :
    (s.regWrite off data).outLen = s.outLen := by unfold State.regWrite; split <;> (try split) <;> rfl
@[simp] theorem State.regWrite_mem (s : State) (off : BitVec 4) (data : Word) :
    (s.regWrite off data).mem = s.mem := by unfold State.regWrite; split <;> (try split) <;> rfl
@[simp] theorem State.regWrite_params (s : State) (off : BitVec 4) (data : Word) :
    (s.regWrite off data).params = s.params := by unfold State.regWrite; split <;> (try split) <;> rfl
@[simp] theorem State.regWrite_inputs (s : State) (off : BitVec 4) (data : Word) :
    (s.regWrite off data).inputs = s.inputs := by unfold State.regWrite; split <;> (try split) <;> rfl
@[simp] theorem State.regWrite_hostData (s : State) (off : BitVec 4) (data : Word) :
    (s.regWrite off data).hostData = s.hostData := by unfold State.regWrite; split <;> (try split) <;> rfl
@[simp] theorem State.regWrite_srcDisturbed (s : State) (off : BitVec 4) (data : Word) :
    (s.regWrite off data).srcDisturbed = s.srcDisturbed := by unfold State.regWrite; split <;> (try split) <;> rfl
@[simp] theorem State.regWrite_freeCount (s : State) (off : BitVec 4) (data : Word) :
    (s.regWrite off data).freeCount = s.freeCount := by unfold State.regWrite; split <;> (try split) <;> rfl

/-! ### The values of STATUS -/

@[simp] theorem statusBusy_eq : statusBusy = 0x00000001#32 := by decide
@[simp] theorem statusDone_rgb : statusDone .rgb = 0x00000012#32 := by decide
@[simp] theorem statusDone_compressed : statusDone .compressed = 0x00000022#32 := by decide
@[simp] theorem statusDone_failed : statusDone .failed = 0x00000036#32 := by decide

@[simp] theorem State.beginCommand_busy (s : State) : s.beginCommand.busy = true := by
  simp [State.busy]

@[simp] theorem State.complete_busy (s : State) (kind : ResultKind) (addr len : Word) :
    (s.complete kind addr len).busy = false := by
  cases kind <;> simp [State.busy, statusDone, kindCode, statusWord] <;> decide

@[simp] theorem State.raise_busy (s : State) (kind : ErrorKind) (info : Word) : (s.raise kind info).busy = false := by
  simp [State.busy]

@[simp] theorem State.clearRegisters_busy (s : State) : s.clearRegisters.busy = false := by
  simp [State.busy]

/-! ### Changing only the inputs changes nothing a command reads -/

@[simp] theorem State.busy_inputs (s : State) (l : List Input) : State.busy { s with inputs := l } = s.busy := rfl
@[simp] theorem State.command_inputs (s : State) (l : List Input) : State.command { s with inputs := l } = s.command := rfl
@[simp] theorem State.w_inputs (s : State) (l : List Input) : State.w { s with inputs := l } = s.w := rfl
@[simp] theorem State.h_inputs (s : State) (l : List Input) : State.h { s with inputs := l } = s.h := rfl
@[simp] theorem State.src_inputs (s : State) (l : List Input) (k : Nat) :
    State.src { s with inputs := l } k = s.src k := rfl

end Sys2Proof.Machine
end

