-- ==== Sys2Proof/Laws/Raster.lean ====
section
/-! SUPPORT. The destination layout (40_dispatch_geometry.md R129) and everything a raster command can do. -/

namespace Sys2Proof.Machine

/-! ### Layout -/

@[simp] theorem Channel.index_lt (c : Channel) : c.index < 3 := by cases c <;> decide

@[simp] theorem channelOf_index (c : Channel) : channelOf c.index = c := by cases c <;> rfl

@[simp] theorem rasterBytes_length (w h : Nat) (out : Nat → Nat → Channel → Byte) :
    (rasterBytes w h out).length = 3 * w * h := by simp [rasterBytes]

/-- The offset of sample (y, x, c) lies in the raster. -/
theorem sample_offset_lt {w h y x : Nat} (hy : y < h) (hx : x < w) (c : Channel) :
    3 * (y * w + x) + c.index < 3 * w * h := by
  have h1 : y * w + x < h * w := by nlinarith
  have h2 := Channel.index_lt c
  nlinarith

/-- Offset 3 × (y × W + x) + c holds Out[y][x][c] (R129). -/
theorem rasterBytes_sample {w h y x : Nat} (out : Nat → Nat → Channel → Byte) (hx : x < w) (c : Channel)
    (hj : 3 * (y * w + x) + c.index < (rasterBytes w h out).length) :
    (rasterBytes w h out)[3 * (y * w + x) + c.index] = out y x c := by
  have hc := Channel.index_lt c
  have h1 : (3 * (y * w + x) + c.index) / 3 = y * w + x := by omega
  have h2 : (3 * (y * w + x) + c.index) % 3 = c.index := by omega
  have h3 : (y * w + x) / w = y := by
    rw [Nat.add_comm, Nat.add_mul_div_right _ _ (by omega), Nat.div_eq_of_lt hx, Nat.zero_add]
  have h4 : (y * w + x) % w = x := by
    rw [Nat.add_comm, Nat.add_mul_mod_self_right, Nat.mod_eq_of_lt hx]
  simp [rasterBytes, h1, h2, h3, h4]

/-! ### storeRaster -/

/-- With ranges apart and an undisturbed source, the raster is what is stored. -/
theorem State.storeRaster_of_duty {s : State} (out : Nat → Nat → Channel → Byte) (ho : s.rangesOverlap = false)
    (hd : s.srcDisturbed = false) :
    s.storeRaster out =
      { s with mem := Memory.writeBytes s.mem s.dstAddr.toNat (rasterBytes s.w s.h out) } := by
  simp [State.storeRaster, ho, hd]

/-- Every byte outside both ranges is unchanged, whatever the host did; outside the destination range alone when the
ranges do not overlap. -/
theorem State.storeRaster_read_outside (s : State) (out : Nat → Nat → Channel → Byte) {a : Nat}
    (hd : a < s.dstAddr.toNat ∨ s.dstAddr.toNat + s.rasterLength ≤ a)
    (hs : s.rangesOverlap = true → a < s.srcAddr.toNat ∨ s.srcAddr.toNat + s.srcLen.toNat ≤ a) :
    Memory.read (s.storeRaster out).mem a = Memory.read s.mem a := by
  unfold State.storeRaster
  split
  · rename_i ho
    rw [Memory.read_writeFree_outside _ _ _ _ hd, Memory.read_writeFree_outside _ _ _ _ (hs ho)]
  · split
    · rw [Memory.read_writeFree_outside _ _ _ _ hd]
    · exact Memory.read_writeBytes_outside _ _ _ (by simpa [State.rasterLength] using hd)

theorem State.storeRaster_wf {s : State} (out : Nat → Nat → Channel → Byte) (hm : Memory.wf s.mem = true) :
    Memory.wf (s.storeRaster out).mem = true := by
  unfold State.storeRaster
  split
  · exact Memory.wf_writeFree (Memory.wf_writeFree hm _ _ _) _ _ _
  · split
    · exact Memory.wf_writeFree hm _ _ _
    · exact Memory.wf_writeBytes hm _ _

/-- The stored samples (R129), with ranges apart and an undisturbed source. -/
theorem State.storeRaster_read_sample {s : State} (out : Nat → Nat → Channel → Byte) (hm : Memory.wf s.mem = true)
    (ho : s.rangesOverlap = false) (hd : s.srcDisturbed = false) {y x : Nat} (hy : y < s.h) (hx : x < s.w)
    (c : Channel) :
    Memory.read (s.storeRaster out).mem (s.dstAddr.toNat + (3 * (y * s.w + x) + c.index)) = out y x c := by
  have hj : 3 * (y * s.w + x) + c.index < (rasterBytes s.w s.h out).length := by
    simpa using sample_offset_lt hy hx c
  rw [State.storeRaster_of_duty out ho hd]
  exact (Memory.read_writeBytes_inside hm _ _ hj).trans (rasterBytes_sample out hx c hj)

/-! ### The geometry check -/

/-- What a passed check says (R124). -/
theorem geometryFails_eq_false_iff (i : Instr) (s : State) :
    geometryFails i s = false ↔
      0 < s.w ∧ 0 < s.h ∧ (needsEvenWidth i = true → s.w % 2 = 0) ∧ s.srcLen.toNat = expectedLength i s
        ∧ s.srcAddr.toNat + s.srcLen.toNat ≤ 2 ^ s.params.aw ∧ s.dstAddr.toNat + s.rasterLength ≤ 2 ^ s.params.aw := by
  simp only [geometryFails, ne_eq, gt_iff_lt, decide_not, Bool.or_eq_false_iff, Bool.and_eq_false_iff,
    decide_eq_false_iff_not, Bool.not_eq_false', decide_eq_true_eq, Nat.not_lt]
  cases needsEvenWidth i <;> simp <;> omega

/-- OUT_LEN fits its register when the destination range fits the address space (R33, R124). -/
theorem rasterLength_lt {s : State} (hp : s.params.wf = true)
    (hd : s.dstAddr.toNat + s.rasterLength ≤ 2 ^ s.params.aw) : s.rasterLength < 2 ^ 32 := by
  simp only [Config.Params.wf, Bool.and_eq_true, decide_eq_true_eq] at hp
  have h1 : 2 ^ s.params.aw ≤ 2 ^ 32 := Nat.pow_le_pow_right (by decide) hp.1.2
  have h2 : s.rasterLength = 3 * (s.w * s.h) := by rw [State.rasterLength, Nat.mul_assoc]
  omega

/-! ### rasterCommand -/

/-- Everything a raster command can do. -/
theorem rasterCommand_cases (i : Instr) (out : Nat → Nat → Channel → Byte) (s : State) :
    (geometryFails i s = true ∧ rasterCommand i out s = .next (s.raise .geometryMismatch s.format))
      ∨ (geometryFails i s = false ∧ rasterCommand i out s = .next (s.completeRaster out)) := by
  unfold rasterCommand
  cases geometryFails i s <;> simp

end Sys2Proof.Machine
end

