-- ==== Sys2Proof/Laws/Demosaic.lean ====
section
/-! SUPPORT. The demosaicker's window as a list of in-frame populated positions: its sum and its count. -/

namespace Sys2Proof.Machine

open Sys2Proof.Safety

/-! ### One dimension -/

/-- Position q lies in the window of p (R225). -/
def near (p q : Nat) : Bool := p ≤ q + 1 && q ≤ p + 1

/-- The three positions p − 1, p, p + 1 that lie below n, summed over F. -/
def sumNear (n p : Nat) (F : Nat → Nat) : Nat :=
  (if 1 ≤ p ∧ p ≤ n then F (p - 1) else 0) + (if p < n then F p else 0) + (if p + 1 < n then F (p + 1) else 0)

theorem sum_range_near (n p : Nat) (F : Nat → Nat) :
    ((List.range n).map fun q => if near p q then F q else 0).sum = sumNear n p F := by
  induction n with
  | zero => simp [sumNear]; omega
  | succ n ih =>
    rw [List.range_succ, List.map_append, List.sum_append, ih]
    simp only [sumNear, near, List.map_cons, List.map_nil, List.sum_cons, List.sum_nil, Bool.and_eq_true,
      decide_eq_true_eq]
    have cases : p = n + 1 ∨ n = p ∨ n = p + 1 ∨ (p ≠ n + 1 ∧ n ≠ p ∧ n ≠ p + 1) := by omega
    rcases cases with rfl | rfl | rfl | ⟨h1, h2, h3⟩
    · rw [Nat.add_sub_cancel]
      split_ifs <;> omega
    · split_ifs <;> omega
    · split_ifs <;> omega
    · split_ifs <;> omega

/-- A quantity of in-frame positions, 0 outside the frame. -/
theorem sum_window (h w y x : Nat) (G : Nat → Nat → Nat) :
    ((window y x).map fun q => if inFrame h w q.1 q.2 then G q.1.toNat q.2.toNat else 0).sum =
      sumNear h y fun yy => sumNear w x fun xx => G yy xx := by
  have row : ∀ Y : Int,
      (if inFrame h w Y ((x : Int) + -1) then G Y.toNat ((x : Int) + -1).toNat else 0)
        + ((if inFrame h w Y ((x : Int) + 0) then G Y.toNat ((x : Int) + 0).toNat else 0)
        + (if inFrame h w Y ((x : Int) + 1) then G Y.toNat ((x : Int) + 1).toNat else 0))
      = if 0 ≤ Y ∧ Y < h then sumNear w x (fun xx => G Y.toNat xx) else 0 := by
    intro Y
    by_cases hY : 0 ≤ Y ∧ Y < h
    · rw [if_pos hY]
      simp only [inFrame, sumNear, Bool.and_eq_true, decide_eq_true_eq, hY.1, hY.2, true_and]
      have e1 : ((x : Int) + -1).toNat = x - 1 := by omega
      have e2 : ((x : Int) + 0).toNat = x := by omega
      have e3 : ((x : Int) + 1).toNat = x + 1 := by omega
      rw [e1, e2, e3]
      simp only [show (0 ≤ (x : Int) + -1 ∧ (x : Int) + -1 < w) ↔ (1 ≤ x ∧ x ≤ w) by omega,
        show (0 ≤ (x : Int) + 0 ∧ (x : Int) + 0 < w) ↔ (x < w) by omega,
        show (0 ≤ (x : Int) + 1 ∧ (x : Int) + 1 < w) ↔ (x + 1 < w) by omega]
      omega
    · rw [if_neg hY]
      have hf : ∀ X, inFrame h w Y X = false := by
        intro X
        simp only [inFrame, Bool.and_eq_false_iff, decide_eq_false_iff_not]
        omega
      simp [hf]
  simp only [window, List.flatMap_cons, List.flatMap_nil, List.map_cons, List.map_nil, List.append_nil,
    List.cons_append, List.nil_append, List.sum_cons, List.sum_nil, Nat.add_zero]
  have r1 := row ((y : Int) + -1)
  have r2 := row ((y : Int) + 0)
  have r3 := row ((y : Int) + 1)
  have e1 : ((y : Int) + -1).toNat = y - 1 := by omega
  have e2 : ((y : Int) + 0).toNat = y := by omega
  have e3 : ((y : Int) + 1).toNat = y + 1 := by omega
  simp only [e1, show (0 ≤ (y : Int) + -1 ∧ (y : Int) + -1 < h) ↔ (1 ≤ y ∧ y ≤ h) by omega] at r1
  simp only [e2, show (0 ≤ (y : Int) + 0 ∧ (y : Int) + 0 < h) ↔ (y < h) by omega] at r2
  simp only [e3, show (0 ≤ (y : Int) + 1 ∧ (y : Int) + 1 < h) ↔ (y + 1 < h) by omega] at r3
  rw [e1, e2, e3, sumNear, ← r1, ← r2, ← r3]
  omega

/-! ### Two dimensions -/

theorem sum_flatMap {α β : Type} (l : List α) (f : α → List β) (g : β → Nat) :
    ((l.flatMap f).map g).sum = (l.map fun a => ((f a).map g).sum).sum := by
  induction l with
  | nil => rfl
  | cons a l ih => simp [List.flatMap_cons, List.map_append, List.sum_append, ih]

theorem sum_filter_map {α : Type} (l : List α) (p : α → Bool) (g : α → Nat) :
    ((l.filter p).map g).sum = (l.map fun a => if p a then g a else 0).sum := by
  induction l with
  | nil => rfl
  | cons a l ih =>
    rw [List.filter_cons]
    split <;> simp_all

/-- A quantity summed over the neighbours of (y, x). -/
theorem sum_neighbours (h w : Nat) (o : BayerOffsets) (c : Channel) (y x : Nat) (g : Nat × Nat → Nat) :
    ((neighbours h w o c y x).map g).sum =
      sumNear h y fun yy => sumNear w x fun xx => if populated o c yy xx then g (yy, xx) else 0 := by
  rw [neighbours, sum_flatMap, ← sum_range_near]
  congr 1
  apply List.map_congr_left
  intro yy _
  rw [List.map_map, sum_filter_map, ← sum_range_near]
  by_cases hy : near y yy = true
  · rw [if_pos hy]
    congr 1
    apply List.map_congr_left
    intro xx _
    simp only [near, Bool.and_eq_true, decide_eq_true_eq] at hy
    by_cases hp : populated o c yy xx = true
    · simp [near, hy, hp]
    · simp [near, hy, hp]
  · rw [if_neg hy]
    have : ∀ xx ∈ List.range w,
        (if (y ≤ yy + 1 && yy ≤ y + 1 && x ≤ xx + 1 && xx ≤ x + 1 && populated o c yy xx) = true
          then (g ∘ fun xx => (yy, xx)) xx else 0) = 0 := by
      intro xx _
      rw [if_neg]
      simp only [near, Bool.and_eq_true, decide_eq_true_eq] at hy ⊢
      tauto
    rw [List.map_congr_left this]
    simp

/-- S is the exact sum over the neighbours (R225). -/
theorem windowSum_eq (plane : Nat → Nat → Sample) (h w : Nat) (o : BayerOffsets) (c : Channel) (y x : Nat) :
    windowSum plane h w o c y x = ((neighbours h w o c y x).map fun q => (plane q.1 q.2).toNat).sum := by
  rw [sum_neighbours, ← sum_window, windowSum]
  congr 1
  apply List.map_congr_left
  intro q _
  simp only [sparse, Bool.and_eq_true]
  by_cases hf : inFrame h w q.1 q.2 = true <;> simp [hf]

/-- N is the number of neighbours (R225). -/
theorem windowCount_eq (h w : Nat) (o : BayerOffsets) (c : Channel) (y x : Nat) :
    windowCount h w o c y x = (neighbours h w o c y x).length := by
  have hl : (neighbours h w o c y x).length = ((neighbours h w o c y x).map fun _ => 1).sum := by simp
  rw [hl, sum_neighbours, ← sum_window, windowCount]
  congr 1
  apply List.map_congr_left
  intro q _
  simp only [presence, Bool.and_eq_true]
  by_cases hf : inFrame h w q.1 q.2 = true <;> simp [hf]

/-- A position is a neighbour when it is in the frame, in the window and populated. -/
theorem mem_neighbours {h w : Nat} {o : BayerOffsets} {c : Channel} {y x : Nat} {q : Nat × Nat} :
    q ∈ neighbours h w o c y x ↔
      q.1 < h ∧ q.2 < w ∧ near y q.1 = true ∧ near x q.2 = true ∧ populated o c q.1 q.2 = true := by
  obtain ⟨yy, xx⟩ := q
  simp only [neighbours, near, List.mem_flatMap, List.mem_range, List.mem_map, List.mem_filter, Bool.and_eq_true,
    decide_eq_true_eq, Prod.mk.injEq]
  constructor
  · rintro ⟨a, ha, b, ⟨hb, hn⟩, rfl, rfl⟩
    tauto
  · rintro ⟨ha, hb, hy, hx, hp⟩
    exact ⟨yy, ha, xx, ⟨hb, by tauto⟩, rfl, rfl⟩

end Sys2Proof.Machine
end

