-- ==== Sys2Proof/Laws/Exec.lean ====
section
/-! SUPPORT. Everything a command can do, said once: `exec_cases`. -/

namespace Sys2Proof.Machine

/-- The ways a command can end, and START's two (R250, R253). -/
inductive Ends (i : Instr) (s : State) : State → Prop
  /-- It fails with an error kind (R276). -/
  | failed (kind : ErrorKind) : i.cmdReg = .format → Ends i s (s.raise kind s.format)
  /-- It passes the source buffer through (R190). -/
  | compressed : i = .decMjpeg → Ends i s (s.complete .compressed s.srcAddr s.srcLen)
  /-- It writes a raster (R120 steps 7 to 9). -/
  | raster (out : Nat → Nat → Channel → Byte) : (bytesPerPixel i).isSome = true → patternOk i = true →
      geometryFails i s = false → Ends i s (s.completeRaster out)
  /-- It is a START that begins a command (R250). -/
  | begun : i.cmdReg = .ctrl → s.busy = false → Ends i s s.beginCommand
  /-- It is a START that is dropped (R250). -/
  | dropped : i.cmdReg = .ctrl → s.busy = true → Ends i s s

theorem rasterCommand_ends {i : Instr} (out : Nat → Nat → Channel → Byte) (s : State) (hf : i.cmdReg = .format)
    (hb : (bytesPerPixel i).isSome = true) (hp : patternOk i = true) :
    ∃ t, rasterCommand i out s = .next t ∧ Ends i s t := by
  rcases rasterCommand_cases i out s with ⟨_, h⟩ | ⟨hg, h⟩
  · exact ⟨_, h, .failed _ hf⟩
  · exact ⟨_, h, .raster out hb hp hg⟩

theorem bayerCommand_ends {i : Instr} {pat : Pattern} (bps : Nat) (raw : Nat → Nat) (s : State)
    (hf : i.cmdReg = .format) (hb : (bytesPerPixel i).isSome = true)
    (hp : patternOk i = (patternSearch pat).isSome) :
    ∃ t, bayerCommand i pat bps raw s = .next t ∧ Ends i s t := by
  unfold bayerCommand
  split
  · exact ⟨_, rfl, .failed _ hf⟩
  · rename_i o ho
    exact rasterCommand_ends _ s hf hb (by rw [hp, ho]; rfl)

/-- Every command answers a next state, and it is one of the ways a command can end. -/
theorem exec_cases (i : Instr) (s : State) : ∃ t, exec i s = .next t ∧ Ends i s t := by
  cases i with
  | decYuv422 => exact rasterCommand_ends _ s rfl rfl rfl
  | decRgb24 => exact rasterCommand_ends _ s rfl rfl rfl
  | decBgr24 => exact rasterCommand_ends _ s rfl rfl rfl
  | decArgb32 => exact rasterCommand_ends _ s rfl rfl rfl
  | decXrgb32 => exact rasterCommand_ends _ s rfl rfl rfl
  | decMjpeg => exact ⟨_, rfl, .compressed rfl⟩
  | decBayer8 pat => exact bayerCommand_ends 8 _ s rfl rfl rfl
  | decBayer10 pat => exact bayerCommand_ends 10 _ s rfl rfl rfl
  | decBayer12 pat => exact bayerCommand_ends 12 _ s rfl rfl rfl
  | decBayerBadBps bps pat => exact ⟨_, rfl, .failed _ rfl⟩
  | decUnrecognised tag => exact ⟨_, rfl, .failed _ rfl⟩
  | start ignored =>
    cases hb : s.busy
    · exact ⟨s.beginCommand, by simp [exec, execStart, hb], .begun rfl hb⟩
    · exact ⟨s, by simp [exec, execStart, hb], .dropped rfl hb⟩

/-- The inversion of `exec_cases`. -/
theorem ends_of_exec {i : Instr} {s t : State} (h : exec i s = .next t) : Ends i s t := by
  obtain ⟨t', h', e⟩ := exec_cases i s
  rw [h'] at h
  cases h
  exact e

end Sys2Proof.Machine
end

