-- ==== Sys2Proof/Laws/PerInstr.lean ====
section
/-! SUPPORT. The statement made of every command one by one: the word the encoder gives it is read as that command. -/

namespace Sys2Proof.Laws.WordRoundTrip

/-- A well-formed command's word, in the register it belongs to, is read as that command. -/
def Statement (i : Instr) : Prop := i.wellFormed = true → decodeWord i.cmdReg (encodeWord i) = .ok i

theorem decYuv422 : Statement .decYuv422 := by intro; rfl
theorem decRgb24 : Statement .decRgb24 := by intro; rfl
theorem decBgr24 : Statement .decBgr24 := by intro; rfl
theorem decArgb32 : Statement .decArgb32 := by intro; rfl
theorem decXrgb32 : Statement .decXrgb32 := by intro; rfl
theorem decMjpeg : Statement .decMjpeg := by intro; rfl

theorem decBayer8 (pat : Pattern) : Statement (.decBayer8 pat) := by
  intro; simp [Instr.cmdReg, decodeWord, encodeWord, decodeFormat_bayerTag]

theorem decBayer10 (pat : Pattern) : Statement (.decBayer10 pat) := by
  intro; simp [Instr.cmdReg, decodeWord, encodeWord, decodeFormat_bayerTag]

theorem decBayer12 (pat : Pattern) : Statement (.decBayer12 pat) := by
  intro; simp [Instr.cmdReg, decodeWord, encodeWord, decodeFormat_bayerTag]

theorem decBayerBadBps (bps : BitVec 8) (pat : Pattern) : Statement (.decBayerBadBps bps pat) := by
  intro h
  simp only [Instr.wellFormed, legalBps, Bool.not_eq_true', Bool.or_eq_false_iff, beq_eq_false_iff_ne] at h
  simp only [Instr.cmdReg, decodeWord, encodeWord, decodeFormat_bayerTag]
  rw [if_neg h.1.1, if_neg h.1.2, if_neg h.2]

theorem decUnrecognised (tag : Word) : Statement (.decUnrecognised tag) := by
  intro h
  obtain ⟨b3, b2, b1, b0, rfl⟩ := exists_bytes tag
  have hr := (recognisedTag_bytes b3 b2 b1 b0).not.1 (by simpa [Instr.wellFormed] using h)
  simp only [Instr.cmdReg, decodeWord, encodeWord, decodeFormat_bytes]
  congr 1
  repeat rw [if_neg (by tauto)]

theorem start (ignored : BitVec 31) : Statement (.start ignored) := by
  intro
  have h0 : (ignored ++ 1#1 : Word).getLsbD 0 = true := by
    rw [BitVec.getLsbD_append]; rfl
  have h1 : (ignored ++ 1#1 : Word).extractLsb' 1 31 = ignored := BitVec.extractLsb'_append_eq_left
  simp only [Instr.cmdReg, decodeWord, encodeWord, decodeCtrl, h0, h1, if_true]

end Sys2Proof.Laws.WordRoundTrip
end

