-- ==== Sys2Proof/Laws/Ready.lean ====
section
/-! SUPPORT. What a raster command does in the terms claims use: completion when it is ready, failure when the geometry
does not fit, and the destination byte of every sample. -/

namespace Sys2Proof.Machine

open Sys2Proof.Safety

/-- `raise` in the terms of claims. -/
theorem raise_eq_failedWith (s : State) (kind : ErrorKind) : s.raise kind s.format = failedWith (errorWord kind) s := by
  simp [State.raise, State.setStatus, failedWith]

/-- The geometry check passes exactly when the geometry holds and the width is even where it must be. -/
theorem geometryFails_iff_not {i : Instr} {bpp : Nat} (hb : bytesPerPixel i = some bpp) (s : State) :
    geometryFails i s = false ↔ GeometryHolds bpp s ∧ (needsEvenWidth i = true → s.w % 2 = 0) := by
  rw [geometryFails_eq_false_iff]
  simp only [expectedLength, hb, Option.getD_some, GeometryHolds, State.rasterLength]
  tauto

/-- Ranges apart, in the two forms. -/
theorem rangesOverlap_of_apart {s : State} (h : RangesApart s) : s.rangesOverlap = false := by
  rw [RangesApart] at h
  rw [State.rangesOverlap, State.rasterLength, Bool.and_eq_false_iff, decide_eq_false_iff_not, decide_eq_false_iff_not]
  rcases h with h | h
  · exact .inr (by omega)
  · exact .inl (by omega)

/-- A raster command whose geometry does not fit. -/
theorem rasterCommand_misfit {i : Instr} {bpp : Nat} (hb : bytesPerPixel i = some bpp)
    (out : Nat → Nat → Channel → Byte) {s : State}
    (h : ¬(GeometryHolds bpp s ∧ (needsEvenWidth i = true → s.w % 2 = 0))) :
    rasterCommand i out s = .next (failedWith 4 s) := by
  have hg : geometryFails i s = true := by
    rw [← Bool.not_eq_false, geometryFails_iff_not hb]; exact h
  rw [rasterCommand, if_pos hg, raise_eq_failedWith]
  rfl

/-- A raster command that is ready: what it leaves, and every sample at its destination offset (R129). -/
theorem rasterCommand_ready {i : Instr} {bpp : Nat} (hb : bytesPerPixel i = some bpp)
    (out : Nat → Nat → Channel → Byte) {s : State} (hr : Ready bpp s) (he : needsEvenWidth i = true → s.w % 2 = 0) :
    ∃ t, rasterCommand i out s = .next t ∧ RasterCompleted s t
      ∧ ∀ y x, y < s.h → x < s.w → ∀ c : Channel, dst s t (3 * (y * s.w + x) + c.index) = out y x c := by
  obtain ⟨hp, hm, hg, ha, hd⟩ := hr
  have ho := rangesOverlap_of_apart ha
  have hf := (geometryFails_iff_not hb s).2 ⟨hg, he⟩
  refine ⟨s.completeRaster out, by rw [rasterCommand, hf]; rfl, ?_, ?_⟩
  · refine ⟨by simp [State.completeRaster], rfl, rfl, rfl, ?_, ?_, ?_, ?_, ?_, rfl⟩
    · have hlt := rasterLength_lt hp (s := s) (by simpa [State.rasterLength] using hg.2.2.2.2)
      simp only [State.completeRaster, State.complete_outLen, BitVec.toNat_ofNat]
      exact Nat.mod_eq_of_lt hlt
    · intro a haOut
      exact State.storeRaster_read_outside s out (by simpa [State.rasterLength] using haOut) (by simp [ho])
    · simp [SameOperands, State.completeRaster]
    · simp [SameSurroundings, State.completeRaster]
    · simp [State.completeRaster, State.storeRaster_of_duty out ho hd]
  · intro y x hy hx c
    exact State.storeRaster_read_sample out hm ho hd hy hx c

/-- A pixel index is a row and a column. -/
theorem exists_row_col {w h p : Nat} (hp : p < w * h) : ∃ y x, y < h ∧ x < w ∧ y * w + x = p := by
  have hw : 0 < w := Nat.pos_of_ne_zero (by rintro rfl; simp at hp)
  refine ⟨p / w, p % w, Nat.div_lt_of_lt_mul hp, Nat.mod_lt _ hw, ?_⟩
  rw [Nat.mul_comm]
  exact Nat.div_add_mod p w

/-- The three destination bytes of pixel p. -/
theorem rasterCommand_ready_pixel {i : Instr} {bpp : Nat} (hb : bytesPerPixel i = some bpp)
    (out : Nat → Nat → Channel → Byte) {s : State} (hr : Ready bpp s) (he : needsEvenWidth i = true → s.w % 2 = 0) :
    ∃ t, rasterCommand i out s = .next t ∧ RasterCompleted s t
      ∧ ∀ p, p < s.w * s.h → ∃ y x, y < s.h ∧ x < s.w ∧ y * s.w + x = p ∧ dst s t (3 * p) = out y x .red
          ∧ dst s t (3 * p + 1) = out y x .green ∧ dst s t (3 * p + 2) = out y x .blue := by
  obtain ⟨t, h1, h2, h3⟩ := rasterCommand_ready hb out hr he
  refine ⟨t, h1, h2, fun p hp => ?_⟩
  obtain ⟨y, x, hy, hx, rfl⟩ := exists_row_col hp
  exact ⟨y, x, hy, hx, rfl, h3 y x hy hx .red, h3 y x hy hx .green, h3 y x hy hx .blue⟩

end Sys2Proof.Machine
end

