-- ==== Sys2Proof/Laws/Step.lean ====
section
/-! SUPPORT. What each input does to the machine, one lemma for each. -/

namespace Sys2Proof.Machine

theorem step_nil {s : State} (h : s.inputs = []) : step s = pdcTurn s := by simp [step, h]

theorem step_cons {s : State} {input : Input} {rest : List Input} (h : s.inputs = input :: rest) :
    step s = applyInput input { s with inputs := rest } := by simp [step, h]

theorem pdcTurn_busy {s : State} (h : s.busy = true) : pdcTurn s = exec s.command s := by simp [pdcTurn, h]

theorem pdcTurn_idle {s : State} (h : s.busy = false) : pdcTurn s = .next s := by simp [pdcTurn, h]

/-- A FORMAT word never selects START. -/
theorem decodeFormat_cmdReg (tag : Word) : (decodeFormat tag).cmdReg = .format := by
  obtain ⟨b3, b2, b1, b0, rfl⟩ := exists_bytes tag
  rw [decodeFormat_bytes]
  repeat' split
  all_goals rfl

/-- A written word is a START exactly when it goes to CTRL with bit 0 set. -/
theorem startOf_eq_some {off : BitVec 4} {data : Word} {i : Instr} (h : startOf off data = some i) :
    off = ctrlOffset ∧ data.getLsbD 0 = true ∧ i = .start (data.extractLsb' 1 31) := by
  unfold startOf decodeCtrl at h
  split at h
  · split at h
    · cases h; exact ⟨‹_›, ‹_›, rfl⟩
    · cases h
  · cases h

/-- Everything a memory write can do (R258, R305, R307). -/
theorem hostMemWrite_next {addr : Word} {byte : Byte} {s t : State} (h : hostMemWrite addr byte s = .next t) :
    addr.toNat < 2 ^ s.params.aw ∧ ¬(s.busy = true ∧ s.inDestination addr.toNat = true) ∧
      t = { s with
        mem := Memory.write s.mem addr.toNat byte,
        srcDisturbed := s.srcDisturbed || (s.busy && s.inSource addr.toNat) } := by
  unfold hostMemWrite at h
  split at h
  · cases h
  · split at h
    · cases h
    · rename_i h1 h2
      refine ⟨by omega, by simpa using h2, ?_⟩
      cases h; rfl

/-- Everything a memory read can do (R258, R307). -/
theorem hostMemRead_next {addr : Word} {s t : State} (h : hostMemRead addr s = .next t) :
    addr.toNat < 2 ^ s.params.aw ∧ ∃ data count, t = { s with hostData := data, freeCount := count } := by
  unfold hostMemRead at h
  split at h
  · cases h
  · rename_i h1
    refine ⟨by omega, ?_⟩
    split at h
    · cases h; exact ⟨_, _, rfl⟩
    · cases h; exact ⟨_, s.freeCount, rfl⟩

/-- The destination range of the command selected by FORMAT lies in the address space (R72). -/
theorem destination_bound {s : State} (h : s.producesRaster = true) :
    s.dstAddr.toNat + s.destinationLength ≤ 2 ^ s.params.aw := by
  rw [State.destinationLength, if_pos h]
  simp only [State.producesRaster, Bool.and_eq_true, Bool.not_eq_true'] at h
  exact ((geometryFails_eq_false_iff _ s).1 h.2).2.2.2.2.2

theorem State.abandonCommand_read_outside (s : State) {a : Nat}
    (ha : s.busy = true → a < s.dstAddr.toNat ∨ s.dstAddr.toNat + s.destinationLength ≤ a) :
    Memory.read s.abandonCommand.mem a = Memory.read s.mem a := by
  unfold State.abandonCommand
  split
  · exact Memory.read_writeFree_outside _ _ _ _ (ha ‹_›)
  · rfl

end Sys2Proof.Machine
end

