-- ==== Sys2Proof/Machine/HostNotation.lean ====
section
/-! DEFINITION. The host-side notation of 30_encoding.md R101 to R103: statements, tag names and the
pseudo-instructions DEC.<name> and DEC.RAW, each as the inputs it stands for. -/

namespace Sys2Proof.Machine

/-- The registers by name (10_state.md R20). -/
inductive RegName where
  | format
  | width
  | height
  | srcAddr
  | srcLen
  | dstAddr
  | ctrl
  | status
  | error
  | errinfo
  | outAddr
  | outLen
deriving DecidableEq, Repr

/-- The word offset of a register: R20's byte offset divided by 4. -/
def regOffset : RegName → BitVec 4
  | .format => 0
  | .width => 1
  | .height => 2
  | .srcAddr => 3
  | .srcLen => 4
  | .dstAddr => 5
  | .ctrl => 6
  | .status => 7
  | .error => 8
  | .errinfo => 9
  | .outAddr => 10
  | .outLen => 11

/-- A statement of the notation (R101). -/
inductive Statement where
  | wr (reg : RegName) (value : Word)
  | rd (reg : RegName)
  /-- WAIT with the number of polls that still read BUSY = 1, which R312 leaves open. -/
  | wait (busyPolls : Nat)
deriving DecidableEq, Repr

/-- The inputs of a statement (R101). The block has its turn between the busy polls of a WAIT and its last. -/
def statementInputs : Statement → List Input
  | .wr reg value => [.regWrite (regOffset reg) value]
  | .rd reg => [.regRead (regOffset reg)]
  | .wait busyPolls =>
    List.replicate busyPolls (.regRead (regOffset .status)) ++ [.pdc, .regRead (regOffset .status)]

/-- A tag name (R102). -/
inductive TagName where
  | yuv422
  | rgb24
  | bgr24
  | argb32
  | xrgb32
  | mjpeg
  | bayer (pat : Pattern) (bps : BitVec 8)
  | raw (tag : Word)
deriving DecidableEq, Repr

/-- The value of a tag name (R102); `raw` is the explicit tag of DEC.RAW (R103). -/
def tagValue : TagName → Word
  | .yuv422 => 0x00000001
  | .rgb24 => 0x00000002
  | .bgr24 => 0x00000003
  | .argb32 => 0x00000004
  | .xrgb32 => 0x00000005
  | .mjpeg => 0x00000006
  | .bayer pat bps => bayerTag bps pat
  | .raw tag => tag

/-- DEC.<name> w, h, src, len, dst: seven writes and a wait (R103). -/
def pseudoInstruction (name : TagName) (w h src len dst : Word) (busyPolls : Nat) : List Statement :=
  [.wr .format (tagValue name), .wr .width w, .wr .height h, .wr .srcAddr src, .wr .srcLen len, .wr .dstAddr dst,
    .wr .ctrl 1, .wait busyPolls]

/-- The inputs of a list of statements, in order. -/
def hostInputs (statements : List Statement) : List Input := statements.flatMap statementInputs

end Sys2Proof.Machine
end

