-- ==== Sys2Proof/Tests/Slice0.lean ====
section
/-! SUPPORT. The model's own tests: ill-formed terms, decoding of written-out words, one step of each command with the
expected bytes of 95_test_vectors.md, and a state and operands that meet the hypotheses of each statement. -/

namespace Sys2Proof.Tests

open Sys2Proof.Machine Sys2Proof.Safety

/-! ### Well-formedness -/

theorem test_illformed_bad_depth_8 : (Instr.decBayerBadBps 8 ⟨.r, .g, .g, .b⟩).wellFormed = false := by decide
theorem test_illformed_bad_depth_10 : (Instr.decBayerBadBps 10 ⟨.r, .g, .g, .b⟩).wellFormed = false := by decide
theorem test_illformed_bad_depth_12 : (Instr.decBayerBadBps 12 ⟨.x, .x, .x, .x⟩).wellFormed = false := by decide
theorem test_illformed_unrecognised_plain : (Instr.decUnrecognised 6).wellFormed = false := by decide
theorem test_illformed_unrecognised_bayer : (Instr.decUnrecognised 0x00940E07).wellFormed = false := by decide

/-! ### Decoding: words written out from R91, R93 and R95 -/

theorem test_decode_yuv422 : decode .format [0x01, 0x00, 0x00, 0x00] = .ok .decYuv422 := by decide
theorem test_decode_rgb24 : decode .format [0x02, 0x00, 0x00, 0x00] = .ok .decRgb24 := by decide
theorem test_decode_bgr24 : decode .format [0x03, 0x00, 0x00, 0x00] = .ok .decBgr24 := by decide
theorem test_decode_argb32 : decode .format [0x04, 0x00, 0x00, 0x00] = .ok .decArgb32 := by decide
theorem test_decode_xrgb32 : decode .format [0x05, 0x00, 0x00, 0x00] = .ok .decXrgb32 := by decide
theorem test_decode_mjpeg : decode .format [0x06, 0x00, 0x00, 0x00] = .ok .decMjpeg := by decide

/-- PATTERN 0x94 = 10 01 01 00: PAT(0) = R, PAT(1) = G, PAT(2) = G, PAT(3) = B (R93, V-TAG). -/
theorem test_decode_bayer8 : decode .format [0x07, 0x08, 0x94, 0x00] = .ok (.decBayer8 ⟨.r, .g, .g, .b⟩) := by decide

/-- PATTERN 0x61 = 01 10 00 01: G, R, B, G (R93, V-TAG). -/
theorem test_decode_bayer10 : decode .format [0x07, 0x0A, 0x61, 0x00] = .ok (.decBayer10 ⟨.g, .r, .b, .g⟩) := by decide

/-- PATTERN 0x16 = 00 01 01 10: B, G, G, R (R93, V-TAG). -/
theorem test_decode_bayer12 : decode .format [0x07, 0x0C, 0x16, 0x00] = .ok (.decBayer12 ⟨.b, .g, .g, .r⟩) := by decide

/-- PATTERN 0xD4 = 11 01 01 00 with depth 14 (V-ERR). -/
theorem test_decode_bad_depth :
    decode .format [0x07, 0x0E, 0xD4, 0x00] = .ok (.decBayerBadBps 14 ⟨.r, .g, .g, .x⟩) := by decide

/-- A set bit in RSV1, and in RSV0, makes a Bayer tag unrecognised (R96). -/
theorem test_decode_unrecognised :
    decode .format [0x07, 0x08, 0x94, 0x01] = .ok (.decUnrecognised 0x01940807)
      ∧ decode .format [0x17, 0x08, 0x94, 0x00] = .ok (.decUnrecognised 0x00940817) := by decide

/-- CTRL bit 0 is the START, bits 31:1 are ignored (R28). -/
theorem test_decode_start : decode .ctrl [0xFF, 0x00, 0x00, 0x80] = .ok (.start 0x4000007F) := by decide

theorem test_decode_start_bit_clear : decode .ctrl [0xFE, 0xFF, 0xFF, 0xFF] = .error .startBitClear := by decide
theorem test_decode_not_one_word : decode .format [0x01, 0x00, 0x00] = .error .notOneWord := by decide

theorem test_table_word :
    decodeTableWord 32 0x00000807 = some (.decBayer8 ⟨.r, .r, .r, .r⟩) ∧ decodeTableWord 8 1 = some (.start 0) := by decide

/-! ### Memory -/

theorem test_memory_keeps_its_form :
    Memory.write (Memory.write (Memory.write [] 5 0x11) 3 0x22) 5 0 = [(3, 0x22)] := by decide
theorem test_memory_reads_zero_where_unlisted : Memory.read [(3, 0x22)] 4 = 0 := by decide
theorem test_reset_memory_is_canonical : Memory.wf State.reset.mem = true := by decide
theorem test_memory_form_refuses_disorder : Memory.wf [(5, 1), (3, 1)] = false ∧ Memory.wf [(3, 0)] = false := by decide

/-! ### One step of each command -/

/-- A command in flight: source buffer at 0x1000, destination at 0x3000. -/
def flight (tag : Word) (w h : Nat) (bytes : List Byte) : State :=
  { State.reset with
    format := tag, width := BitVec.ofNat 32 w, height := BitVec.ofNat 32 h, srcAddr := 0x1000,
    srcLen := BitVec.ofNat 32 bytes.length, dstAddr := 0x3000, status := 1,
    mem := Memory.writeBytes [] 0x1000 bytes }

/-- The machine with the given inputs. -/
def given (s : State) (inputs : List Input) : State := { s with inputs := inputs }

/-- STATUS and ERROR after one step, and the first bytes of the destination. -/
def outcome (s : State) (n : Nat) : Option (Word × Word × List Byte) :=
  (nextOf (step s)).map fun t => (t.status, t.error, (List.range n).map fun k => Memory.read t.mem (0x3000 + k))

/-- Vector V-YUV2. -/
theorem test_yuv422 :
    outcome (flight 1 2 1 [0x64, 0xC8, 0xC8, 0xFA]) 6 = some (0x12, 0, [0x0F, 0xF5, 0xE3, 0x73, 0x58, 0x47]) := by
  decide

/-- Vector V-GEOM: an odd width. -/
theorem test_yuv422_odd_width : outcome (flight 1 1 1 [0x80, 0x80]) 0 = some (0x36, 4, []) := by decide

/-- Vector V-RGB3c. -/
theorem test_rgb24 :
    outcome (flight 2 3 1 [1, 2, 3, 4, 5, 6, 7, 8, 9]) 9 = some (0x12, 0, [3, 2, 1, 6, 5, 4, 9, 8, 7]) := by
  decide

/-- Vector V-RGB3b, its first row. -/
theorem test_bgr24 :
    outcome (flight 3 2 1 [0x30, 0x20, 0x10, 0x60, 0x50, 0x40]) 6
      = some (0x12, 0, [0x30, 0x20, 0x10, 0x60, 0x50, 0x40]) := by decide

/-- Vector V-RGB4a. -/
theorem test_argb32 :
    outcome (flight 4 2 1 [0x30, 0x20, 0x10, 0xFF, 3, 2, 1, 0]) 6 = some (0x12, 0, [0x10, 0x20, 0x30, 1, 2, 3]) := by
  decide

/-- Vector V-RGB4b. -/
theorem test_xrgb32 :
    outcome (flight 5 1 2 [0xCC, 0xBB, 0xAA, 0x5A, 0x00, 0xFF, 0x00, 0xA5]) 6
      = some (0x12, 0, [0xAA, 0xBB, 0xCC, 0x00, 0xFF, 0x00]) := by decide

/-- Vector V-MJPEG: the result is the source buffer, and the destination is untouched. -/
theorem test_mjpeg :
    (nextOf (step (flight 6 640 480 [1, 2, 3, 4]))).map (fun t => (t.status, t.outAddr, t.outLen, t.mem.length))
      = some (0x22, 0x1000, 4, 4) := by decide

/-- Vector V-BAY7. -/
theorem test_bayer8_odd :
    outcome (flight 0x00940807 3 3 [10, 20, 30, 40, 50, 60, 70, 80, 90]) 27
      = some (0x12, 0, [0x0A, 0x1E, 0x32, 0x14, 0x28, 0x32, 0x1E, 0x28, 0x32, 0x28, 0x2E, 0x32, 0x32, 0x32, 0x32, 0x3C,
          0x35, 0x32, 0x46, 0x3C, 0x32, 0x50, 0x3C, 0x32, 0x5A, 0x46, 0x32]) := by decide

/-- Vector V-BAY8: a channel with no sample is 0. -/
theorem test_bayer8_one_row :
    outcome (flight 0x00940807 4 1 [10, 20, 30, 40]) 12
      = some (0x12, 0, [0x0A, 0x14, 0x00, 0x14, 0x14, 0x00, 0x1E, 0x1E, 0x00, 0x1E, 0x28, 0x00]) := by decide

/-- Vector V-BAY12: words that overflow ten bits. -/
theorem test_bayer10_overflow :
    outcome (flight 0x00940A07 2 2 [0x00, 0x04, 0xFF, 0x07, 0xFF, 0xFF, 0x01, 0x80]) 6
      = some (0x12, 0, [0, 255, 0, 0, 255, 0]) := by decide

/-- Vector V-BAY6. -/
theorem test_bayer12 :
    outcome (flight 0x00490C07 2 2 [0xFF, 0x0F, 0x00, 0x08, 0x00, 0x04, 0x01, 0x00]) 6
      = some (0x12, 0, [0x40, 0x80, 0x80, 0x40, 0x80, 0x80]) := by decide

/-- Vector V-ERR: the pattern is searched before the geometry is looked at. -/
theorem test_bayer12_pattern : outcome (flight 0x00550C07 0 0 []) 0 = some (0x36, 3, []) := by decide

/-- Vector V-ERR: the depth is looked at before the pattern. -/
theorem test_bad_depth : outcome (flight 0x00D40E07 0 0 []) 0 = some (0x36, 2, []) := by decide

/-- Vector V-ERR. -/
theorem test_unrecognised :
    (nextOf (step (flight 0x80000006 2 2 []))).map (fun t => (t.status, t.error, t.errinfo, t.outAddr, t.outLen))
      = some (0x36, 1, 0x80000006, 0, 0) := by decide

/-- R250: START clears the last result. -/
theorem test_start :
    (nextOf (step { State.reset with status := 0x36, error := 4, errinfo := 2, inputs := [.regWrite 6 1] })).map
      (fun t => (t.status, t.error, t.errinfo)) = some (1, 0, 0) := by decide

/-- R250: a START while BUSY = 1 does nothing. -/
theorem test_start_while_busy :
    nextOf (step (given (flight 1 2 1 []) [.regWrite 6 0xFFFFFFFF])) = some (flight 1 2 1 []) := by decide

/-- R26: an operand write while BUSY = 1 is lost. -/
theorem test_operand_write_while_busy :
    nextOf (step (given (flight 1 2 1 []) [.regWrite 0 7])) = some (flight 1 2 1 []) := by decide

/-- The notation DEC.RGB24 (R103) is seven writes, the polls, the block's turn and a last poll. -/
theorem test_pseudo_instruction :
    hostInputs (pseudoInstruction .rgb24 2 1 0x1000 6 0x2000 1) =
      [.regWrite 0 2, .regWrite 1 2, .regWrite 2 1, .regWrite 3 0x1000, .regWrite 4 6, .regWrite 5 0x2000, .regWrite 6 1,
        .regRead 7, .pdc, .regRead 7] := by decide

/-- R154: a negative quotient is truncated toward zero and wraps (V-CSC, (0, 128, 0)). -/
theorem test_csc_wraps :
    (csc cscTable .red 0 128 0, csc cscTable .green 0 128 0, csc cscTable .blue 0 128 0) = (77, 91, 0) := by decide

/-- Vector V-DEM3: the largest count, 6, with the greens in one column. -/
theorem test_demosaic_largest_sum :
    (windowCount 4 4 ⟨⟨0, 0⟩, ⟨1, 0⟩, ⟨1, 1⟩, ⟨0, 1⟩⟩ .green 1 2,
      windowSum (fun _ _ => 0xFFFF) 4 4 ⟨⟨0, 0⟩, ⟨1, 0⟩, ⟨1, 1⟩, ⟨0, 1⟩⟩ .green 1 2) = (6, 393210) := by decide

/-! ### States and operands that meet the hypotheses of the statements -/

/-- DecodeOfEncode, at the depths on both sides of a legal one and at the word below the recognised ones. -/
theorem witness_DecodeOfEncode :
    (Instr.decBayerBadBps 7 ⟨.r, .g, .g, .b⟩).wellFormed = true ∧ (Instr.decBayerBadBps 13 ⟨.x, .x, .x, .x⟩).wellFormed = true
      ∧ (Instr.decUnrecognised 0).wellFormed = true ∧ (Instr.decUnrecognised 0xFFFFFFFF).wellFormed = true
      ∧ (Instr.start 0).wellFormed = true := by decide

/-- PatternSearchFindsTheChannels: a pattern that passes, and one that does not. -/
theorem witness_PatternSearchFindsTheChannels :
    patternSearch ⟨.r, .g, .g, .b⟩ = some ⟨⟨0, 0⟩, ⟨1, 0⟩, ⟨0, 1⟩, ⟨1, 1⟩⟩ ∧ patternSearch ⟨.r, .g, .b, .x⟩ = none := by
  decide

/-- StepRunsTheSelectedCommand, both clauses; CommandsEndOnlyByCompletionOrReset, second part, both cases. -/
theorem witness_StepRunsTheSelectedCommand :
    ((flight 6 1 1 []).busy = true ∧ decode .format (bytesOfWord (flight 6 1 1 []).format) = .ok .decMjpeg
      ∧ (flight 6 1 1 []).inputs = [])
    ∧ (given (flight 6 1 1 []) [.pdc, .reset]).busy = true
      ∧ decode .format (bytesOfWord (given (flight 6 1 1 []) [.pdc, .reset]).format) = .ok .decMjpeg
      ∧ (given (flight 6 1 1 []) [.pdc, .reset]).inputs = .pdc :: [.reset] := by decide

/-- StepRunsTheWrittenStart. -/
theorem witness_StepRunsTheWrittenStart :
    (given State.reset [.regWrite 6 1]).inputs = .regWrite 6 1 :: []
      ∧ decode .ctrl (bytesOfWord 1) = .ok (.start 0) := by decide

/-- IdleBlockKeepsItsState, both clauses. -/
theorem witness_IdleBlockKeepsItsState :
    (State.reset.busy = false ∧ State.reset.inputs = [])
      ∧ (given State.reset [.pdc]).busy = false ∧ (given State.reset [.pdc]).inputs = .pdc :: [] := by decide

/-- PlacedWordRunsNext, for a FORMAT word and, with its last clause, a CTRL word. -/
theorem witness_PlacedWordRunsNext :
    decodeTableWord 32 3 = some .decBgr24 ∧ decodeTableWord 8 1 = some (.start 0)
      ∧ (Instr.start 0).cmdReg = .ctrl := by decide

/-- StartBeginsACommand, its three clauses. -/
theorem witness_StartBeginsACommand :
    ((given State.reset [.regWrite 6 3]).inputs = .regWrite 6 3 :: [] ∧ (3 : Word).getLsbD 0 = true
      ∧ (given State.reset [.regWrite 6 3]).busy = false)
    ∧ ((given (flight 1 2 1 []) [.regWrite 6 1]).inputs = .regWrite 6 1 :: [] ∧ (1 : Word).getLsbD 0 = true
      ∧ (given (flight 1 2 1 []) [.regWrite 6 1]).busy = true)
    ∧ (given State.reset [.regWrite 6 2]).inputs = .regWrite 6 2 :: [] ∧ (2 : Word).getLsbD 0 = false := by decide

/-- StartCompletes, its two clauses. -/
theorem witness_StartCompletes : State.reset.busy = false ∧ (flight 1 2 1 []).busy = true := by decide

/-- BadDepthAlwaysFails, at both ends of the field and between two legal depths. -/
theorem witness_BadDepthAlwaysFails :
    ∀ bps ∈ ([0, 9, 11, 13, 255] : List (BitVec 8)), bps ≠ 8 ∧ bps ≠ 10 ∧ bps ≠ 12 := by decide

/-- Yuv422StoresTheTransform: a frame that is ready, and one of odd width. -/
theorem witness_Yuv422StoresTheTransform :
    (Ready 2 (flight 1 2 1 [1, 2, 3, 4]) ∧ (flight 1 2 1 [1, 2, 3, 4]).w % 2 = 0)
      ∧ ¬(GeometryHolds 2 (flight 1 1 1 [1, 2]) ∧ (flight 1 1 1 [1, 2]).w % 2 = 0) := by
  unfold Ready GeometryHolds RangesApart
  decide

/-- Rgb24SwapsTheOuterBytes and Bgr24CopiesTheSource: a frame that is ready, and one whose length is one too short. -/
theorem witness_Rgb24SwapsTheOuterBytes :
    Ready 3 (flight 2 1 1 [1, 2, 3]) ∧ Ready 3 (flight 3 1 1 [1, 2, 3]) ∧ ¬GeometryHolds 3 (flight 2 1 1 [1, 2]) := by
  unfold Ready GeometryHolds RangesApart
  decide

/-- A frame that fills the address space to its last byte on both sides is ready; one byte further does not fit. -/
theorem witness_Ready_at_the_edge :
    Ready 3 { flight 2 1 1 [] with srcAddr := 0, srcLen := 3, dstAddr := 0xFFFFFFFD }
      ∧ ¬GeometryHolds 3 { flight 2 1 1 [] with srcAddr := 0, srcLen := 3, dstAddr := 0xFFFFFFFE } := by
  unfold Ready GeometryHolds RangesApart
  decide

/-- Packed32ReversesAndDrops: a ready frame for each value of ARGB_DROP, and one without rows. -/
theorem witness_Packed32ReversesAndDrops :
    (Ready 4 (flight 4 1 1 [1, 2, 3, 4]) ∧ (flight 4 1 1 [1, 2, 3, 4]).params.argbDrop = .element0)
      ∧ (Ready 4 { flight 4 1 1 [1, 2, 3, 4] with params := { parameters with argbDrop := .element3 } }
        ∧ ({ parameters with argbDrop := .element3 } : Config.Params).argbDrop = .element3)
      ∧ ¬GeometryHolds 4 (flight 5 1 0 []) := by
  unfold Ready GeometryHolds RangesApart
  decide

/-- Bayer8StoresTheMeans, Bayer10StoresTheMeans and Bayer12StoresTheMeans: a pattern of each kind, a ready frame of one
pixel, and one whose source buffer leaves the address space. -/
theorem witness_BayerStoresTheMeans :
    patternSearch ⟨.g, .g, .g, .b⟩ = none
      ∧ patternSearch ⟨.b, .g, .g, .r⟩ = some ⟨⟨1, 1⟩, ⟨1, 0⟩, ⟨0, 1⟩, ⟨0, 0⟩⟩
      ∧ Ready 1 (flight 0x00160807 1 1 [200]) ∧ Ready 2 (flight 0x00160A07 1 1 [200, 1])
      ∧ Ready 2 (flight 0x00160C07 1 1 [200, 1])
      ∧ ¬GeometryHolds 1 { flight 0x00160807 2 1 [1, 2] with srcAddr := 0xFFFFFFFF }
      ∧ ¬GeometryHolds 2 { flight 0x00160A07 1 1 [1, 2] with srcAddr := 0xFFFFFFFF } := by
  unfold Ready GeometryHolds RangesApart
  decide

/-- Rgb24AndBgr24Agree. -/
theorem witness_Rgb24AndBgr24Agree :
    Ready 3 (flight 2 1 1 [3, 2, 1]) ∧ Ready 3 (flight 3 1 1 [1, 2, 3])
      ∧ (flight 2 1 1 [3, 2, 1]).w = (flight 3 1 1 [1, 2, 3]).w ∧ (flight 2 1 1 [3, 2, 1]).h = (flight 3 1 1 [1, 2, 3]).h
      ∧ ∀ p, p < (flight 2 1 1 [3, 2, 1]).w * (flight 2 1 1 [3, 2, 1]).h →
        (flight 2 1 1 [3, 2, 1]).src (3 * p) = (flight 3 1 1 [1, 2, 3]).src (3 * p + 2)
          ∧ (flight 2 1 1 [3, 2, 1]).src (3 * p + 1) = (flight 3 1 1 [1, 2, 3]).src (3 * p + 1)
          ∧ (flight 2 1 1 [3, 2, 1]).src (3 * p + 2) = (flight 3 1 1 [1, 2, 3]).src (3 * p) := by
  unfold Ready GeometryHolds RangesApart
  decide

/-- CscTruncatesTowardZeroAndWraps: a positive scale, a sum of each sign and the sum 0. -/
theorem witness_CscTruncatesTowardZeroAndWraps :
    0 < cscTable.scale ∧ cscSum cscTable .red 0 0 0 < 0 ∧ 0 < cscSum cscTable .red 255 0 255
      ∧ 0 < ({ cscTable with red := ⟨0, 0, 0, 0⟩ } : Config.CscTable).scale
      ∧ cscSum { cscTable with red := ⟨0, 0, 0, 0⟩ } .red 1 2 3 = 0 := by decide

/-- The offsets of the pattern RGGB. -/
def rggb : BayerOffsets := ⟨⟨0, 0⟩, ⟨1, 0⟩, ⟨0, 1⟩, ⟨1, 1⟩⟩

/-- DemosaicIsTheFloorOfTheMean, FlatFieldsAreReproduced and BayerNetLaw: a window with samples, one without, and samples
of the largest legal value. -/
theorem witness_DemosaicIsTheFloorOfTheMean :
    (neighbours 1 4 rggb .red 0 1).length = 2 ∧ (neighbours 1 4 rggb .blue 0 1).length = 0
      ∧ windowCount 1 4 rggb .red 0 1 ≠ 0
      ∧ (∀ q ∈ neighbours 1 4 rggb .red 0 1, (fun _ => 255 : Nat → Nat) (q.1 * 4 + q.2) < 2 ^ 8) := by decide

/-- DemosaicStaysWithinItsSamples, with equal and with different bounds. -/
theorem witness_DemosaicStaysWithinItsSamples :
    windowCount 2 2 rggb .green 0 0 ≠ 0
      ∧ (∀ q ∈ neighbours 2 2 rggb .green 0 0, 7 ≤ ((fun _ _ => 7 : Nat → Nat → Sample) q.1 q.2).toNat
        ∧ ((fun _ _ => 7 : Nat → Nat → Sample) q.1 q.2).toNat ≤ 7)
      ∧ ∀ q ∈ neighbours 2 2 rggb .green 0 0, 0 ≤ ((fun _ x => BitVec.ofNat 16 x : Nat → Nat → Sample) q.1 q.2).toNat
        ∧ ((fun _ x => BitVec.ofNat 16 x : Nat → Nat → Sample) q.1 q.2).toNat ≤ 1 := by decide

/-- MaskCountClosedForm, its two green clauses. -/
theorem witness_MaskCountClosedForm :
    rggb.green0 ≠ rggb.green1
      ∧ ({ rggb with green1 := rggb.green0 } : BayerOffsets).green0
        = ({ rggb with green1 := rggb.green0 } : BayerOffsets).green1 := by decide

/-- MaskIsNeverZeroInARealFrame, at the smallest frame. -/
theorem witness_MaskIsNeverZeroInARealFrame :
    patternSearch ⟨.r, .g, .g, .b⟩ = some rggb ∧ 2 ≤ 2 ∧ 1 < 2 ∧ windowCount 2 2 rggb .blue 1 1 = 1 := by decide

/-- FlatFieldsAreReproduced. -/
theorem witness_FlatFieldsAreReproduced :
    (∀ yy, yy < 2 → ∀ xx, xx < 2 → populated rggb .green yy xx = true →
        (fun y x => if (y + x) % 2 = 1 then 9 else 0 : Nat → Nat → Sample) yy xx = 9)
      ∧ windowCount 2 2 rggb .green 1 1 ≠ 0 := by decide

/-- UnrecognisedAlwaysFails: words beside the recognised ones. -/
theorem witness_UnrecognisedAlwaysFails :
    recognisedTag 0 = false ∧ recognisedTag 8 = false ∧ recognisedTag 0x01000007 = false ∧ recognisedTag 0x17 = false
      ∧ recognisedTag 0x101 = false := by decide

/-- GeometryMismatchExactly, its first part: each kind of command it is about. -/
theorem witness_GeometryMismatchExactly_others :
    bytesPerPixel .decMjpeg = none ∧ (Instr.decMjpeg).cmdReg = .format ∧ patternOk (.decBayer10 ⟨.r, .g, .g, .x⟩) = false := by
  decide

/-- GeometryMismatchExactly, its second part: a valid pattern, a frame that fits each length and a frame without columns. -/
theorem witness_GeometryMismatchExactly :
    (patternSearch ⟨.r, .g, .g, .b⟩).isSome = true ∧ GeometryHolds 1 (flight 0x00940807 1 1 [1])
      ∧ GeometryHolds 2 (flight 1 2 1 [1, 2, 3, 4]) ∧ GeometryHolds 3 (flight 2 1 1 [1, 2, 3])
      ∧ GeometryHolds 4 (flight 4 1 1 [1, 2, 3, 4]) ∧ (flight 2 0 1 []).w = 0 := by
  unfold GeometryHolds
  decide

/-- FailureChangesOnlyTheStatusRegisters: a command that fails. -/
theorem witness_FailureChangesOnlyTheStatusRegisters :
    (Instr.decUnrecognised 0).cmdReg = .format
      ∧ exec (.decUnrecognised 0) State.reset = .next (State.reset.raise .unsupportedFormat 0)
      ∧ (State.reset.raise .unsupportedFormat 0).err = true :=
  ⟨rfl, rfl, by decide⟩

/-- CommandsCompleteInThreeWays, StatusDoesNotDependOnMemory: legal parameters. -/
theorem witness_CommandsCompleteInThreeWays : Instr.decRgb24.cmdReg = .format ∧ State.reset.params.wf = true := by
  decide

/-- CommandsKeepTheOperands and CommandsWriteOnlyTheirRange: a command that completes with a raster, with ranges apart and
addresses outside them at their edges; and one that ends otherwise. -/
theorem witness_CommandsWriteOnlyTheirRange :
    (∃ t, exec .decRgb24 (flight 2 1 1 [1, 2, 3]) = .next t) ∧ RangesApart (flight 2 1 1 [1, 2, 3])
      ∧ (0x2FFF < (flight 2 1 1 [1, 2, 3]).dstAddr.toNat)
      ∧ ((flight 2 1 1 [1, 2, 3]).dstAddr.toNat + 3 * (flight 2 1 1 [1, 2, 3]).w * (flight 2 1 1 [1, 2, 3]).h ≤ 0x3003)
      ∧ ∃ t, exec .decMjpeg (flight 6 1 1 []) = .next t ∧ t.status ≠ 0x00000012 := by
  refine ⟨⟨_, rfl⟩, ?_, by decide, by decide, _, rfl, by decide⟩
  unfold RangesApart
  decide

/-- CommandsWriteOnlyTheirRange with ranges that overlap, and an address outside both. -/
theorem witness_CommandsWriteOnlyTheirRange_overlap :
    { flight 2 1 1 [1, 2, 3] with dstAddr := 0x1001 }.rangesOverlap = true
      ∧ 0x0FFF < { flight 2 1 1 [1, 2, 3] with dstAddr := 0x1001 }.srcAddr.toNat := by decide

/-- OutcomeDependsOnOperandsAndSourceOnly: two states that differ outside the source buffer. -/
theorem witness_OutcomeDependsOnOperandsAndSourceOnly :
    let s := flight 2 1 1 [1, 2, 3]
    let s' := { s with mem := Memory.write s.mem 0x5000 9 }
    SameOperands s s' ∧ s.params = s'.params ∧ Memory.wf s.mem = true ∧ Memory.wf s'.mem = true ∧ RangesApart s
      ∧ s.srcDisturbed = false ∧ s'.srcDisturbed = false ∧ (∀ k, k < s.srcLen.toNat → s.src k = s'.src k)
      ∧ s.mem ≠ s'.mem := by
  intro s s'
  unfold SameOperands RangesApart
  decide

/-- EveryStepKeepsTheInvariant and BusyStatusReadsAsOne: a command in flight is a legal state, and its step has a next. -/
theorem witness_EveryStepKeepsTheInvariant :
    Safety.Inv (flight 2 1 1 [1, 2, 3]) ∧ (flight 2 1 1 [1, 2, 3]).busy = true
      ∧ ∃ t, step (flight 2 1 1 [1, 2, 3]) = .next t := by
  refine ⟨?_, by decide, _, rfl⟩
  unfold Safety.Inv ResultLegal ResultsClear
  decide

/-- HardwareResetClearsTheRegisters: reset while idle, and during a command with an address outside its destination. -/
theorem witness_HardwareResetClearsTheRegisters :
    (given State.reset [.reset]).inputs = .reset :: [] ∧ (given State.reset [.reset]).busy = false
      ∧ (given (flight 2 1 1 [1, 2, 3]) [.reset]).inputs = .reset :: []
      ∧ (given (flight 2 1 1 [1, 2, 3]) [.reset]).busy = true
      ∧ (given (flight 2 1 1 [1, 2, 3]) [.reset]).inDestination 0x3002 = true
      ∧ (given (flight 2 1 1 [1, 2, 3]) [.reset]).inDestination 0x3003 = false := by decide

/-- RegisterWritesReachOnlyIdleOperands, its clauses at the last operand, the first read-only register, the last offset,
and while a command runs. -/
theorem witness_RegisterWritesReachOnlyIdleOperands :
    (State.reset.busy = false ∧ (5 : BitVec 4).toNat < 6 ∧ (5 : BitVec 4) ≠ 6)
      ∧ (6 < (7 : BitVec 4).toNat ∧ (7 : BitVec 4) ≠ 6) ∧ (6 < (15 : BitVec 4).toNat ∧ (15 : BitVec 4) ≠ 6)
      ∧ (flight 2 1 1 []).busy = true ∧ (given State.reset [.regWrite 5 9]).inputs = .regWrite 5 9 :: [] := by
  decide

/-- RegisterReadsChangeNothing: CTRL, and both ends of the offsets without a register. -/
theorem witness_RegisterReadsChangeNothing :
    (given State.reset [.regRead 6]).inputs = .regRead 6 :: [] ∧ 11 < (12 : BitVec 4).toNat ∧ 11 < (15 : BitVec 4).toNat := by
  decide

/-- OperandsChangeOnlyByIdleWritesOrReset: a step that changes one. -/
theorem witness_OperandsChangeOnlyByIdleWritesOrReset :
    ∃ t, step (given State.reset [.regWrite 1 9]) = .next t ∧ ¬SameOperands (given State.reset [.regWrite 1 9]) t := by
  refine ⟨_, rfl, ?_⟩
  unfold SameOperands
  decide

/-- StatusChangesOnlyAtStartCompletionReset: a START that changes it. -/
theorem witness_StatusChangesOnlyAtStartCompletionReset :
    ∃ t, step (given State.reset [.regWrite 6 1]) = .next t ∧ ¬SameStatus (given State.reset [.regWrite 6 1]) t := by
  refine ⟨_, rfl, ?_⟩
  unfold SameStatus
  decide

/-- CommandsEndOnlyByCompletionOrReset: a command that completes. -/
theorem witness_CommandsEndOnlyByCompletionOrReset :
    ∃ t, (flight 6 1 1 []).busy = true ∧ step (flight 6 1 1 []) = .next t ∧ t.busy = false := by
  refine ⟨_, by decide, rfl, by decide⟩

/-- MemoryChangesOnlyByItsWriters: another agent's write, and a raster. -/
theorem witness_MemoryChangesOnlyByItsWriters :
    (∃ t, step (given State.reset [.memWrite 8 1]) = .next t
        ∧ Memory.read t.mem 8 ≠ Memory.read (given State.reset [.memWrite 8 1]).mem 8)
      ∧ ∃ t, step (flight 3 1 1 [1, 2, 3]) = .next t
        ∧ Memory.read t.mem 0x3002 ≠ Memory.read (flight 3 1 1 [1, 2, 3]).mem 0x3002 := by
  refine ⟨⟨_, rfl, by decide⟩, _, rfl, by decide⟩

/-- HostWritesReachMemory and HostReadsSeeMemory: the last byte of the address space while idle, and a byte of the source
buffer beside the destination range while a command runs. -/
theorem witness_HostWritesReachMemory :
    (given State.reset [.memWrite 0xFFFFFFFF 1]).inputs = .memWrite 0xFFFFFFFF 1 :: []
      ∧ Memory.wf State.reset.mem = true ∧ (0xFFFFFFFF : Word).toNat < 2 ^ State.reset.params.aw
      ∧ State.reset.busy = false
      ∧ (given (flight 2 1 1 [1, 2, 3]) [.memRead 0x1000]).inputs = .memRead 0x1000 :: []
      ∧ (flight 2 1 1 [1, 2, 3]).busy = true ∧ (flight 2 1 1 [1, 2, 3]).inDestination 0x1000 = false
      ∧ (flight 2 1 1 [1, 2, 3]).inSource 0x1000 = true := by decide

/-- OnlyTwoThingsStopTheMachine: a fault by each access with a narrower address space, and the refusal. -/
theorem witness_OnlyTwoThingsStopTheMachine :
    step { given State.reset [.memRead 0x100] with params := { parameters with aw := 8 } } = .fault .noSuchAddress
      ∧ step { given State.reset [.memWrite 0x100 1] with params := { parameters with aw := 8 } } = .fault .noSuchAddress
      ∧ step (given (flight 2 1 1 [1, 2, 3]) [.memWrite 0x3000 1]) = .refused .destinationWriteWhileBusy :=
  ⟨rfl, rfl, rfl⟩

/-- DutifulHostsNeverStopTheMachine: a host that reads the source buffer of the command in flight. -/
theorem witness_DutifulHostsNeverStopTheMachine :
    ∀ input rest, (given (flight 2 1 1 [1, 2, 3]) [.memRead 0x1000]).inputs = input :: rest →
      dutifulInput (given (flight 2 1 1 [1, 2, 3]) [.memRead 0x1000]) input = true
        ∧ ∀ addr byte, input = .memWrite addr byte ∨ input = .memRead addr →
          addr.toNat < 2 ^ (given (flight 2 1 1 [1, 2, 3]) [.memRead 0x1000]).params.aw := by
  intro input rest h
  cases h
  refine ⟨by decide, ?_⟩
  rintro addr byte (h | h)
  · cases h
  · cases h; decide

/-- CanonicalMemoriesAreEqualWhenTheyReadAlike. -/
theorem witness_CanonicalMemoriesAreEqualWhenTheyReadAlike :
    Memory.wf (Memory.writeBytes [] 4 [1, 0, 2]) = true ∧ Memory.wf [(4, 1), (6, 2)] = true
      ∧ ∀ a, Memory.read (Memory.writeBytes [] 4 [1, 0, 2]) a = Memory.read [(4, 1), (6, 2)] a := by
  refine ⟨by decide, by decide, fun a => ?_⟩
  rw [show Memory.writeBytes [] 4 [1, 0, 2] = [(4, 1), (6, 2)] by decide]

end Sys2Proof.Tests
end

