-- ==== Sys2Proof/Proofs/CanonicalMemory.lean ====
section
/-! PROOF. The canonical form of memory is extensional: the head of a canonical list is the least address that does not
read as unlisted, so two canonical lists that read alike have the same head, and then the same tail. -/

namespace Sys2Proof.Machine

@[simp] theorem Memory.read_cons_same (a : Nat) (v : Byte) (rest : Memory) : Memory.read ((a, v) :: rest) a = v := by
  simp [Memory.read]

theorem Memory.read_cons_other {a b : Nat} (h : b ≠ a) (v : Byte) (rest : Memory) :
    Memory.read ((a, v) :: rest) b = Memory.read rest b := by
  simp [Memory.read, h]

/-- No address below the head of a canonical memory is listed. -/
theorem Memory.head_le_of_read_ne {a b : Nat} {v : Byte} {rest : Memory} (hm : Memory.wf ((a, v) :: rest) = true)
    (hb : Memory.read ((a, v) :: rest) b ≠ unlistedByte) : a ≤ b := by
  obtain ⟨-, hlt, -⟩ := (Memory.wf_cons _ _ _).1 hm
  by_contra hba
  refine hb (Memory.read_of_lt fun c hc => ?_)
  rcases List.mem_cons.1 hc with rfl | hc
  · exact Nat.lt_of_not_le hba
  · exact Nat.lt_trans (Nat.lt_of_not_le hba) (hlt c hc)

/-- The head's address reads as its byte, which no unlisted address does. -/
theorem Memory.read_head_ne {a : Nat} {v : Byte} {rest : Memory} (hm : Memory.wf ((a, v) :: rest) = true) :
    Memory.read ((a, v) :: rest) a ≠ unlistedByte := by
  rw [Memory.read_cons_same]
  exact ((Memory.wf_cons _ _ _).1 hm).1

/-- Taking equal heads off canonical memories that read alike leaves tails that read alike. -/
theorem Memory.tails_read_alike {a : Nat} {v : Byte} {rest rest' : Memory}
    (hm : Memory.wf ((a, v) :: rest) = true) (hm' : Memory.wf ((a, v) :: rest') = true)
    (h : ∀ b, Memory.read ((a, v) :: rest) b = Memory.read ((a, v) :: rest') b) (b : Nat) :
    Memory.read rest b = Memory.read rest' b := by
  obtain ⟨-, hlt, -⟩ := (Memory.wf_cons _ _ _).1 hm
  obtain ⟨-, hlt', -⟩ := (Memory.wf_cons _ _ _).1 hm'
  by_cases hb : b = a
  · rw [hb, Memory.read_of_lt hlt, Memory.read_of_lt hlt']
  · rw [← Memory.read_cons_other hb v, h b, Memory.read_cons_other hb]

theorem Memory.eq_of_read_eq {m m' : Memory} (hm : Memory.wf m = true) (hm' : Memory.wf m' = true)
    (h : ∀ a, Memory.read m a = Memory.read m' a) : m = m' := by
  induction m generalizing m' with
  | nil =>
    cases m' with
    | nil => rfl
    | cons c' rest' => exact absurd (h c'.1).symm (Memory.read_head_ne hm')
  | cons c rest ih =>
    cases m' with
    | nil => exact absurd (h c.1) (Memory.read_head_ne hm)
    | cons c' rest' =>
      obtain ⟨a, v⟩ := c
      obtain ⟨a', v'⟩ := c'
      have hle : a' ≤ a := Memory.head_le_of_read_ne hm' (h a ▸ Memory.read_head_ne hm)
      have hge : a ≤ a' := Memory.head_le_of_read_ne hm (h a' ▸ Memory.read_head_ne hm')
      obtain rfl : a = a' := Nat.le_antisymm hge hle
      obtain rfl : v = v' := by simpa using h a
      obtain ⟨-, -, hrest⟩ := (Memory.wf_cons _ _ _).1 hm
      obtain ⟨-, -, hrest'⟩ := (Memory.wf_cons _ _ _).1 hm'
      rw [ih hrest hrest' (Memory.tails_read_alike hm hm' h)]

/-- Settles O55: induction on the first list, by `Memory.eq_of_read_eq`. -/
theorem canonicalMemoriesAreEqualWhenTheyReadAlike : Obligations.CanonicalMemoriesAreEqualWhenTheyReadAlike :=
  fun _ _ hm hm' h => Memory.eq_of_read_eq hm hm' h

end Sys2Proof.Machine
end

