-- ==== Sys2Proof/Proofs/OutcomeFunction.lean ====
section
/-! PROOF. A command's outcome is a function of the operands and the source bytes (00_scope.md R18). The one idea: when
the geometry check passes, every source byte a sample of the raster is computed from lies in the source buffer. Each
sample function gets one lemma that says so; a raster command then does the same thing in both states. -/

namespace Sys2Proof.Machine

open Sys2Proof.Safety

/-! ### Pure functions of samples in the frame -/

/-- The destination bytes are a function of the samples in the frame. -/
theorem rasterBytes_congr {w h : Nat} {out out' : Nat → Nat → Channel → Byte}
    (heq : ∀ y x, y < h → x < w → ∀ c, out y x c = out' y x c) :
    rasterBytes w h out = rasterBytes w h out' := by
  refine List.map_congr_left fun j hj => ?_
  have hlt : j / 3 < w * h := by
    have := List.mem_range.1 hj
    rw [Nat.mul_assoc] at this
    omega
  have hw : 0 < w := Nat.pos_of_ne_zero (by rintro rfl; simp at hlt)
  exact heq _ _ (Nat.div_lt_of_lt_mul hlt) (Nat.mod_lt _ hw) _

/-- The demosaicker reads no sample outside the frame. -/
theorem demosaic_congr {plane plane' : Nat → Nat → Sample} {h w : Nat}
    (heq : ∀ y x, y < h → x < w → plane y x = plane' y x) (o : BayerOffsets) (y x : Nat) (c : Channel) :
    demosaic plane h w o y x c = demosaic plane' h w o y x c := by
  have hsum : windowSum plane h w o c y x = windowSum plane' h w o c y x := by
    rw [windowSum_eq, windowSum_eq]
    refine congrArg List.sum (List.map_congr_left fun q hq => ?_)
    obtain ⟨hy, hx, -⟩ := mem_neighbours.1 hq
    rw [heq _ _ hy hx]
  rw [demosaic, demosaic, hsum]

/-- The linear index of a position of the frame. -/
theorem pixel_lt {w h y x : Nat} (hy : y < h) (hx : x < w) : y * w + x < w * h :=
  calc y * w + x < (y + 1) * w := by rw [Nat.succ_mul]; omega
    _ ≤ h * w := Nat.mul_le_mul_right w hy
    _ = w * h := Nat.mul_comm h w

/-- The bytes a completed raster leaves in the destination range, when the host kept its duties (R129). -/
theorem State.dst_completeRaster {s : State} (out : Nat → Nat → Channel → Byte) (hm : Memory.wf s.mem = true)
    (ho : s.rangesOverlap = false) (hd : s.srcDisturbed = false) {j : Nat} (hj : j < (rasterBytes s.w s.h out).length) :
    dst s (s.completeRaster out) j = (rasterBytes s.w s.h out)[j] := by
  rw [dst, State.completeRaster, State.complete_mem, State.storeRaster_of_duty out ho hd]
  exact Memory.read_writeBytes_inside hm _ _ hj

/-! ### Two states a command cannot tell apart -/

/-- The premises of R18: the six operands, the parameters and the source bytes are the same, memory is canonical, and
the host kept R305 and R306 in both. -/
structure Alike (s1 s2 : State) : Prop where
  operands : SameOperands s1 s2
  params : s1.params = s2.params
  wf1 : Memory.wf s1.mem = true
  wf2 : Memory.wf s2.mem = true
  apart : RangesApart s1
  undisturbed1 : s1.srcDisturbed = false
  undisturbed2 : s2.srcDisturbed = false
  source : ∀ k, k < s1.srcLen.toNat → s1.src k = s2.src k

/-- The conclusion of R18: both answer, with the same status registers and, after a raster, the same destination
bytes. -/
def SameOutcome (s1 s2 : State) (o1 o2 : Host.Outcome State Fault Refusal) : Prop :=
  ∃ t1 t2, o1 = .next t1 ∧ o2 = .next t2 ∧ SameStatus t1 t2
    ∧ (t1.status = 0x00000012 → ∀ j, j < 3 * s1.w * s1.h → dst s1 t1 j = dst s2 t2 j)

namespace Alike

variable {s1 s2 : State}

theorem format_eq (a : Alike s1 s2) : s2.format = s1.format := by
  obtain ⟨hf, -⟩ := a.operands
  exact hf

theorem srcAddr_eq (a : Alike s1 s2) : s2.srcAddr = s1.srcAddr := by
  obtain ⟨-, -, -, hs, -⟩ := a.operands
  exact hs

theorem srcLen_eq (a : Alike s1 s2) : s2.srcLen = s1.srcLen := by
  obtain ⟨-, -, -, -, hl, -⟩ := a.operands
  exact hl

theorem dstAddr_eq (a : Alike s1 s2) : s2.dstAddr = s1.dstAddr := by
  obtain ⟨-, -, -, -, -, hd⟩ := a.operands
  exact hd

theorem w_eq (a : Alike s1 s2) : s2.w = s1.w := by
  obtain ⟨-, hw, -⟩ := a.operands
  rw [State.w, State.w, hw]

theorem h_eq (a : Alike s1 s2) : s2.h = s1.h := by
  obtain ⟨-, -, hh, -⟩ := a.operands
  rw [State.h, State.h, hh]

theorem rasterLength_eq (a : Alike s1 s2) : s2.rasterLength = s1.rasterLength := by
  rw [State.rasterLength, State.rasterLength, a.w_eq, a.h_eq]

theorem geometryFails_eq (a : Alike s1 s2) (i : Instr) : geometryFails i s2 = geometryFails i s1 := by
  rw [Bool.eq_iff_iff, ← not_iff_not]
  simp only [Bool.not_eq_true, geometryFails_eq_false_iff, expectedLength, a.w_eq, a.h_eq, a.srcAddr_eq, a.srcLen_eq,
    a.dstAddr_eq, a.rasterLength_eq, a.params]

theorem rangesOverlap1 (a : Alike s1 s2) : s1.rangesOverlap = false := rangesOverlap_of_apart a.apart

theorem rangesOverlap2 (a : Alike s1 s2) : s2.rangesOverlap = false := by
  rw [← a.rangesOverlap1]
  simp only [State.rangesOverlap, a.srcAddr_eq, a.srcLen_eq, a.dstAddr_eq, a.rasterLength_eq]

/-- With the length check passed, the source bytes agree below BPP × W × H. -/
theorem src_eq (a : Alike s1 s2) {bpp k : Nat} (hg : GeometryHolds bpp s1) (hk : k < bpp * (s1.w * s1.h)) :
    s1.src k = s2.src k := by
  obtain ⟨-, -, hlen, -⟩ := hg
  exact a.source k (by rwa [hlen, Nat.mul_assoc])

/-! ### What both commands answer -/

/-- A command that fails in both states fails alike (R276). -/
theorem raise_sameOutcome (a : Alike s1 s2) (kind : ErrorKind) :
    SameOutcome s1 s2 (.next (s1.raise kind s1.format)) (.next (s2.raise kind s2.format)) := by
  refine ⟨_, _, rfl, rfl, by simp [SameStatus, a.format_eq], fun hstatus => ?_⟩
  rw [State.raise_status, statusDone_failed] at hstatus
  exact absurd hstatus (by decide)

/-- A raster that is stored in both states from samples that agree in the frame. -/
theorem completeRaster_sameOutcome (a : Alike s1 s2) {out1 out2 : Nat → Nat → Channel → Byte}
    (hout : ∀ y x, y < s1.h → x < s1.w → ∀ c, out1 y x c = out2 y x c) :
    SameOutcome s1 s2 (.next (s1.completeRaster out1)) (.next (s2.completeRaster out2)) := by
  refine ⟨_, _, rfl, rfl, ?_, fun _ j hj => ?_⟩
  · simp [SameStatus, State.completeRaster, a.dstAddr_eq, a.rasterLength_eq]
  · have hbytes : rasterBytes s1.w s1.h out1 = rasterBytes s2.w s2.h out2 := by
      rw [a.w_eq, a.h_eq, rasterBytes_congr hout]
    have hj1 : j < (rasterBytes s1.w s1.h out1).length := by simpa using hj
    rw [State.dst_completeRaster out1 a.wf1 a.rangesOverlap1 a.undisturbed1 hj1,
      State.dst_completeRaster out2 a.wf2 a.rangesOverlap2 a.undisturbed2 (hbytes ▸ hj1)]
    simp only [hbytes]

/-- A raster command whose samples agree in the frame whenever the geometry check passes. -/
theorem rasterCommand_sameOutcome (a : Alike s1 s2) {i : Instr} {bpp : Nat} (hb : bytesPerPixel i = some bpp)
    {out1 out2 : Nat → Nat → Channel → Byte}
    (hout : GeometryHolds bpp s1 → (needsEvenWidth i = true → s1.w % 2 = 0) →
      ∀ y x, y < s1.h → x < s1.w → ∀ c, out1 y x c = out2 y x c) :
    SameOutcome s1 s2 (rasterCommand i out1 s1) (rasterCommand i out2 s2) := by
  rw [rasterCommand, rasterCommand, a.geometryFails_eq]
  cases hf : geometryFails i s1 with
  | true => exact a.raise_sameOutcome .geometryMismatch
  | false =>
    obtain ⟨hg, heven⟩ := (geometryFails_iff_not hb s1).1 hf
    exact a.completeRaster_sameOutcome (hout hg heven)

/-! ### The samples of each command -/

/-- R150, R151: the macropixel of a pixel lies in the buffer because the width is even. -/
theorem yuv422Sample_eq (a : Alike s1 s2) (hg : GeometryHolds 2 s1) (heven : s1.w % 2 = 0) {y x : Nat}
    (hy : y < s1.h) (hx : x < s1.w) (c : Channel) : s1.yuv422Sample y x c = s2.yuv422Sample y x c := by
  have hp := pixel_lt hy hx
  have hwh : s1.w * s1.h % 2 = 0 := by rw [Nat.mul_mod, heven, Nat.zero_mul, Nat.zero_mod]
  have hsrc : ∀ k, k < 4 → s1.src (4 * ((y * s1.w + x) / 2) + k) = s2.src (4 * ((y * s1.w + x) / 2) + k) :=
    fun k hk => a.src_eq hg (by omega)
  simp only [State.yuv422Sample, State.luma, State.chromaU, State.chromaV, a.w_eq, a.params]
  rw [hsrc _ (by omega), hsrc 1 (by omega), hsrc 3 (by omega)]

theorem rgb24Sample_eq (a : Alike s1 s2) (hg : GeometryHolds 3 s1) {y x : Nat} (hy : y < s1.h) (hx : x < s1.w)
    (c : Channel) : s1.rgb24Sample y x c = s2.rgb24Sample y x c := by
  have hp := pixel_lt hy hx
  rw [State.rgb24Sample, State.rgb24Sample, a.w_eq, a.src_eq hg (by omega)]

theorem bgr24Sample_eq (a : Alike s1 s2) (hg : GeometryHolds 3 s1) {y x : Nat} (hy : y < s1.h) (hx : x < s1.w)
    (c : Channel) : s1.bgr24Sample y x c = s2.bgr24Sample y x c := by
  have hp := pixel_lt hy hx
  have hc := Channel.index_lt c
  rw [State.bgr24Sample, State.bgr24Sample, a.w_eq, a.src_eq hg (by omega)]

theorem packed32Sample_eq (a : Alike s1 s2) (hg : GeometryHolds 4 s1) {y x : Nat} (hy : y < s1.h) (hx : x < s1.w)
    (c : Channel) : s1.packed32Sample y x c = s2.packed32Sample y x c := by
  have hp := pixel_lt hy hx
  simp only [State.packed32Sample, a.w_eq, a.params]
  rw [a.src_eq hg (k := 4 * (y * s1.w + x) + 3) (by omega), a.src_eq hg (k := 4 * (y * s1.w + x) + 2) (by omega),
    a.src_eq hg (k := 4 * (y * s1.w + x) + 1) (by omega), a.src_eq hg (k := 4 * (y * s1.w + x)) (by omega)]

theorem raw8_eq (a : Alike s1 s2) (hg : GeometryHolds 1 s1) {q : Nat} (hq : q < s1.w * s1.h) :
    s1.raw8 q = s2.raw8 q := by
  rw [State.raw8, State.raw8, a.src_eq hg (by omega)]

theorem raw16_eq (a : Alike s1 s2) (hg : GeometryHolds 2 s1) {q : Nat} (hq : q < s1.w * s1.h) :
    s1.raw16 q = s2.raw16 q := by
  rw [State.raw16, State.raw16, State.src16, State.src16, a.src_eq hg (k := 2 * q) (by omega),
    a.src_eq hg (k := 2 * q + 1) (by omega)]

/-- Raw samples that agree in the frame give the same output samples, borders included (R224). -/
theorem bayerSample_eq (a : Alike s1 s2) (bps : Nat) {raw1 raw2 : Nat → Nat}
    (hraw : ∀ q, q < s1.w * s1.h → raw1 q = raw2 q) (o : BayerOffsets) (y x : Nat) (c : Channel) :
    s1.bayerSample bps raw1 o y x c = s2.bayerSample bps raw2 o y x c := by
  rw [State.bayerSample, State.bayerSample, a.w_eq, a.h_eq]
  refine congrArg narrow (demosaic_congr (fun yy xx hy hx => ?_) o y x c)
  rw [samplePlane, samplePlane, hraw _ (pixel_lt hy hx)]

theorem bayerCommand_sameOutcome (a : Alike s1 s2) {i : Instr} {bpp : Nat} (hb : bytesPerPixel i = some bpp)
    (pat : Pattern) (bps : Nat) {raw1 raw2 : Nat → Nat}
    (hraw : GeometryHolds bpp s1 → ∀ q, q < s1.w * s1.h → raw1 q = raw2 q) :
    SameOutcome s1 s2 (bayerCommand i pat bps raw1 s1) (bayerCommand i pat bps raw2 s2) := by
  rw [bayerCommand, bayerCommand]
  cases patternSearch pat with
  | none => exact a.raise_sameOutcome .malformedMosaicPattern
  | some o => exact a.rasterCommand_sameOutcome hb fun hg _ y x _ _ => a.bayerSample_eq bps (hraw hg) o y x

/-- R190: the result buffer of the pass-through is the source buffer, and no raster is written. -/
theorem decMjpeg_sameOutcome (a : Alike s1 s2) : SameOutcome s1 s2 (execDecMjpeg s1) (execDecMjpeg s2) := by
  refine ⟨_, _, rfl, rfl, by simp [SameStatus, a.srcAddr_eq, a.srcLen_eq], fun hstatus => ?_⟩
  rw [State.complete_status, statusDone_compressed] at hstatus
  exact absurd hstatus (by decide)

/-- Every FORMAT command has the same outcome in both states. -/
theorem exec_sameOutcome (a : Alike s1 s2) {i : Instr} (hi : i.cmdReg = .format) :
    SameOutcome s1 s2 (exec i s1) (exec i s2) := by
  cases i with
  | decYuv422 => exact a.rasterCommand_sameOutcome rfl fun hg heven _ _ hy hx => a.yuv422Sample_eq hg (heven rfl) hy hx
  | decRgb24 => exact a.rasterCommand_sameOutcome rfl fun hg _ _ _ hy hx => a.rgb24Sample_eq hg hy hx
  | decBgr24 => exact a.rasterCommand_sameOutcome rfl fun hg _ _ _ hy hx => a.bgr24Sample_eq hg hy hx
  | decArgb32 => exact a.rasterCommand_sameOutcome rfl fun hg _ _ _ hy hx => a.packed32Sample_eq hg hy hx
  | decXrgb32 => exact a.rasterCommand_sameOutcome rfl fun hg _ _ _ hy hx => a.packed32Sample_eq hg hy hx
  | decMjpeg => exact a.decMjpeg_sameOutcome
  | decBayer8 pat => exact a.bayerCommand_sameOutcome rfl pat 8 fun hg _ => a.raw8_eq hg
  | decBayer10 pat => exact a.bayerCommand_sameOutcome rfl pat 10 fun hg _ => a.raw16_eq hg
  | decBayer12 pat => exact a.bayerCommand_sameOutcome rfl pat 12 fun hg _ => a.raw16_eq hg
  | decBayerBadBps bps pat => exact a.raise_sameOutcome .unsupportedBitDepth
  | decUnrecognised tag => exact a.raise_sameOutcome .unsupportedFormat
  | start ignored => cases hi

end Alike

/-- Settles O40: one case for each command, by `Alike.exec_sameOutcome`. -/
theorem outcomeDependsOnOperandsAndSourceOnly : Obligations.OutcomeDependsOnOperandsAndSourceOnly :=
  fun _ _ _ hi hops hparams hwf1 hwf2 hapart hd1 hd2 hsrc =>
    Alike.exec_sameOutcome ⟨hops, hparams, hwf1, hwf2, hapart, hd1, hd2, hsrc⟩ hi

end Sys2Proof.Machine
end

