-- ==== Sys2Proof/Proofs/RegisterBlock.lean ====
section
/-! PROOF. The register block as the host sees it: what a read gives after a write, which writes are ignored, and START
as the write to CTRL that it is (10_state.md R20 to R28; 47_host_control.md R250). -/

namespace Sys2Proof.Machine

open Sys2Proof.Safety

/-! ### Reads after writes -/

/-- R20, R21, R26: a write while BUSY = 1, or to an offset that holds no operand register, is ignored. -/
theorem State.regWrite_of_ignored {s : State} {off : BitVec 4} (h : s.busy = true ∨ 6 ≤ off.toNat) (data : Word) :
    s.regWrite off data = s := by
  unfold State.regWrite
  rcases h with hb | hoff
  · rw [if_pos hb]
  · split
    · rfl
    · split
      any_goals omega
      rfl

/-- R22 to R25: an operand register reads as the value written to it while BUSY = 0. -/
theorem State.regRead_regWrite_same {s : State} {off : BitVec 4} (hb : s.busy = false) (hoff : off.toNat < 6)
    (data : Word) : (s.regWrite off data).regRead off = data := by
  simp only [State.regWrite, State.regRead, hb, Bool.false_eq_true, if_false]
  interval_cases off.toNat <;> rfl

/-- A register other than the one written reads as before. -/
theorem State.regRead_regWrite_other {off off' : BitVec 4} (hne : off' ≠ off) (s : State) (data : Word) :
    (s.regWrite off data).regRead off' = s.regRead off' := by
  have hnat : off'.toNat ≠ off.toNat := fun h => hne (BitVec.eq_of_toNat_eq h)
  unfold State.regWrite
  split
  · rfl
  · split
    all_goals
      unfold State.regRead
      split <;> try omega
      all_goals rfl

/-- R21, R28: CTRL and the offsets without a register read 0. -/
theorem State.regRead_of_no_register (s : State) {off : BitVec 4} (h : off = 6 ∨ 11 < off.toNat) :
    s.regRead off = 0 := by
  have hoff : off.toNat = 6 ∨ 11 < off.toNat := h.imp_left (congrArg BitVec.toNat)
  unfold State.regRead
  split
  any_goals omega
  rfl

@[simp] theorem State.regRead_clearRegisters (s : State) (off : BitVec 4) : s.clearRegisters.regRead off = 0 := by
  unfold State.regRead
  split <;> rfl

/-! ### Which command a write is -/

theorem startOf_of_ne_ctrl {off : BitVec 4} (h : off ≠ 6) (data : Word) : startOf off data = none := if_neg h

theorem startOf_ctrl_of_decode {data : Word} {i : Instr} (h : decode .ctrl (bytesOfWord data) = .ok i) :
    startOf 6 data = some i := by
  rw [decode_bytesOfWord, decodeWord] at h
  rw [startOf, ctrlOffset, if_pos rfl, h]
  rfl

theorem applyInput_start {off : BitVec 4} {data : Word} {i : Instr} (h : startOf off data = some i) (s : State) :
    applyInput (.regWrite off data) s = exec i s := by
  simp [applyInput, h]

theorem applyInput_regWrite {off : BitVec 4} {data : Word} (h : startOf off data = none) (s : State) :
    applyInput (.regWrite off data) s = .next (s.regWrite off data) := by
  simp [applyInput, h, hostRegWrite]

/-! ### START -/

theorem exec_start_idle {s : State} (hb : s.busy = false) (ignored : BitVec 31) :
    exec (.start ignored) s = .next s.beginCommand := by
  simp [exec, execStart, hb]

theorem exec_start_busy {s : State} (hb : s.busy = true) (ignored : BitVec 31) :
    exec (.start ignored) s = .next s := by
  simp [exec, execStart, hb]

/-! ### The statements -/

/-- Settles O8: the bytes of a word decode as the word does. -/
theorem stepRunsTheWrittenStart : Obligations.StepRunsTheWrittenStart := by
  intro s data rest i hin hdec
  rw [step_cons hin, applyInput_start (startOf_ctrl_of_decode hdec)]

/-- Settles O12: one clause for each value of BUSY. -/
theorem startCompletes : Obligations.StartCompletes := by
  intro s ignored
  refine ⟨fun hb => ?_, fun hb => exec_start_busy hb ignored⟩
  rw [exec_start_idle hb, State.beginCommand, statusBusy_eq]
  rfl

/-- Settles O44: an ignored write keeps the state, an accepted one is read back and reaches no other register. -/
theorem registerWritesReachOnlyIdleOperands : Obligations.RegisterWritesReachOnlyIdleOperands := by
  intro s off data rest hin hctrl
  have hstep : step s = .next (State.regWrite { s with inputs := rest } off data) := by
    rw [step_cons hin, applyInput_regWrite (startOf_of_ne_ctrl hctrl data)]
  refine ⟨fun h => ?_, fun hb hoff => ⟨_, hstep, ?_, ?_, ?_, ?_, ?_, ?_⟩⟩
  · rw [hstep]
    exact congrArg _ (State.regWrite_of_ignored (s := { s with inputs := rest }) (h.imp_right Nat.le_of_lt) data)
  · exact State.regRead_regWrite_same (s := { s with inputs := rest }) hb hoff data
  · intro off' hne
    exact State.regRead_regWrite_other hne _ data
  all_goals simp

/-- Settles O45: the register at each offset is the definition of `State.regRead`; the empty offsets are
`State.regRead_of_no_register`. -/
theorem registerReadsChangeNothing : Obligations.RegisterReadsChangeNothing := by
  intro s off rest hin
  refine ⟨?_, s.regRead_of_no_register, rfl, rfl, rfl, rfl, rfl, rfl, rfl, rfl, rfl, rfl, rfl⟩
  rw [step_cons hin]
  rfl

end Sys2Proof.Machine
end

