-- ==== Sys2Proof/Proofs/StepCases.lean ====
section
/-! PROOF. Everything one step can do, said once: `step` takes the next input, and `Applied` lists what each input leads
to. A command in flight completes in one of three ways (`Completes`). Every statement about whole steps is a case
analysis over these two. -/

namespace Sys2Proof.Machine

open Sys2Proof.Safety

/-! ### What a command keeps and where it writes -/

/-- R132: no way of ending touches an operand register or anything on the host's side. -/
theorem Ends.keeps {i : Instr} {s t : State} (h : Ends i s t) : SameOperands s t ∧ SameSurroundings s t := by
  cases h with
  | failed | compressed | begun | dropped => exact ⟨by simp [SameOperands], by simp [SameSurroundings]⟩
  | raster out => exact ⟨by simp [SameOperands, State.completeRaster], by simp [SameSurroundings, State.completeRaster]⟩

theorem State.completeRaster_status (s : State) (out : Nat → Nat → Channel → Byte) :
    (s.completeRaster out).status = 0x00000012 := by
  rw [State.completeRaster, State.complete_status, statusDone_rgb]
  rfl

/-- Settles O37, by `Ends.keeps`. -/
theorem commandsKeepTheOperands : Obligations.CommandsKeepTheOperands :=
  fun _ _ _ h => (ends_of_exec h).keeps

/-- Settles O38: only a raster writes memory, and a raster ends with KIND = RGB. -/
theorem commandsWriteOnlyTheirRange : Obligations.CommandsWriteOnlyTheirRange := by
  intro i s t hi h
  cases ends_of_exec h with
  | failed | compressed => exact ⟨fun _ => rfl, fun _ _ _ => rfl⟩
  | raster out =>
    refine ⟨fun hstatus => absurd (s.completeRaster_status out) hstatus, fun a hdst hsrc => ?_⟩
    refine s.storeRaster_read_outside out hdst fun hoverlap => hsrc.resolve_left fun hapart => ?_
    rw [rangesOverlap_of_apart hapart] at hoverlap
    exact Bool.noConfusion hoverlap
  | begun hctrl | dropped hctrl => rw [hi] at hctrl; exact CmdReg.noConfusion hctrl

/-! ### The command in flight -/

/-- R275: a raster command raises nothing but GeometryMismatch. -/
theorem rasterCommand_error {i : Instr} {out : Nat → Nat → Channel → Byte} {s t : State}
    (h : rasterCommand i out s = .next t) : t.error = 0 ∨ t.error = 4 := by
  rcases rasterCommand_cases i out s with ⟨-, h'⟩ | ⟨-, h'⟩
  · rw [h'] at h; cases h; exact .inr rfl
  · rw [h'] at h; cases h; exact .inl rfl

/-- R275: a Bayer command raises MalformedMosaicPattern when its search fails, else GeometryMismatch alone. -/
theorem bayerCommand_error {i : Instr} {pat : Pattern} {bps : Nat} {raw : Nat → Nat} {s t : State}
    (h : bayerCommand i pat bps raw s = .next t) :
    t.error = 0 ∨ t.error = if (patternSearch pat).isSome then 4 else 3 := by
  unfold bayerCommand at h
  split at h
  · rename_i hnone
    cases h
    rw [hnone]
    exact .inr rfl
  · rename_i o hsome
    rw [hsome]
    exact rasterCommand_error h

/-- The error code a command reports explains its tag (R270, R275). -/
theorem errorFits_of_exec {s t : State} (h : exec s.command s = .next t) :
    t.error = 0 ∨ errorFits t.error s.format = true := by
  rw [errorFits, ← State.command]
  cases hc : s.command with
  | decYuv422 | decRgb24 | decBgr24 | decArgb32 | decXrgb32 =>
    rw [hc] at h
    exact (rasterCommand_error h).imp_right beq_iff_eq.2
  | decBayer8 pat | decBayer10 pat | decBayer12 pat =>
    rw [hc] at h
    exact (bayerCommand_error h).imp_right beq_iff_eq.2
  | decMjpeg => rw [hc] at h; cases h; exact .inl rfl
  | decBayerBadBps bps pat => rw [hc] at h; cases h; exact .inr rfl
  | decUnrecognised tag => rw [hc] at h; cases h; exact .inr rfl
  | start ignored =>
    have hformat := decodeFormat_cmdReg s.format
    rw [← State.command, hc] at hformat
    exact CmdReg.noConfusion hformat

/-- The ways the command in flight ends (R253). -/
inductive Completes (s : State) : State → Prop
  /-- It fails with a kind its tag can raise (R276). -/
  | failed (kind : ErrorKind) : errorFits (errorWord kind) s.format = true → Completes s (s.raise kind s.format)
  /-- It passes the source buffer through (R190). -/
  | compressed : Completes s (s.complete .compressed s.srcAddr s.srcLen)
  /-- It writes a raster (R120 steps 7 to 9). -/
  | raster (out : Nat → Nat → Channel → Byte) : s.producesRaster = true → Completes s (s.completeRaster out)

theorem errorWord_ne_zero (kind : ErrorKind) : errorWord kind ≠ 0 := by cases kind <;> decide

theorem completes_of_exec {s t : State} (h : exec s.command s = .next t) : Completes s t := by
  have hformat : s.command.cmdReg = .format := decodeFormat_cmdReg s.format
  have hfits := errorFits_of_exec h
  cases ends_of_exec h with
  | failed kind => exact .failed kind (hfits.resolve_left (errorWord_ne_zero kind))
  | compressed => exact .compressed
  | raster out hbpp hpat hgeom => exact .raster out (by simp [State.producesRaster, hbpp, hpat, hgeom])
  | begun hctrl | dropped hctrl => rw [hformat] at hctrl; exact CmdReg.noConfusion hctrl

theorem Completes.keeps_operands {s t : State} (h : Completes s t) : SameOperands s t := by
  cases h with
  | failed | compressed => simp [SameOperands]
  | raster => simp [SameOperands, State.completeRaster]

/-- R253: BUSY falls and DONE rises with the result. -/
theorem Completes.done {s t : State} (h : Completes s t) : t.busy = false ∧ t.done = true := by
  cases h with
  | failed => exact ⟨State.raise_busy _ _ _, by rw [State.done, State.raise_status]; rfl⟩
  | compressed => exact ⟨State.complete_busy _ _ _ _, by rw [State.done, State.complete_status]; rfl⟩
  | raster => exact ⟨State.complete_busy _ _ _ _, by rw [State.done, State.completeRaster_status]; rfl⟩

/-! ### The input a step takes -/

/-- The input the next step takes: the head of the list, and the block's own turn when there is none. -/
def State.nextInput (s : State) : Input := s.inputs.headD .pdc

/-- The state less the input taken. -/
def State.advanced (s : State) : State := { s with inputs := s.inputs.tail }

theorem step_eq (s : State) : step s = applyInput s.nextInput s.advanced := by
  obtain ⟨format, width, height, srcAddr, srcLen, dstAddr, status, error, errinfo, outAddr, outLen, mem, params, inputs,
    hostData, srcDisturbed, freeCount⟩ := s
  cases inputs <;> rfl

theorem State.nextInput_eq_pdc_iff (s : State) :
    s.nextInput = .pdc ↔ s.inputs = [] ∨ ∃ rest, s.inputs = .pdc :: rest := by
  rw [State.nextInput]
  cases s.inputs <;> simp

theorem State.nextInput_eq_iff (s : State) {input : Input} (h : input ≠ .pdc) :
    s.nextInput = input ↔ ∃ rest, s.inputs = input :: rest := by
  rw [State.nextInput]
  cases s.inputs <;> simp [h.symm]

/-! ### What each input leads to -/

/-- Everything that can happen when an input is taken. -/
inductive Applied (s : State) : Input → State → Prop
  /-- START while BUSY = 0 (R250). -/
  | begun (data : Word) : data.getLsbD 0 = true → s.busy = false → Applied s (.regWrite 6 data) s.beginCommand
  /-- START while BUSY = 1 (R250). -/
  | dropped (data : Word) : s.busy = true → Applied s (.regWrite 6 data) s
  /-- Any other register write (R20 to R26, R28). -/
  | written (off : BitVec 4) (data : Word) : Applied s (.regWrite off data) (s.regWrite off data)
  /-- A register read (R20). -/
  | read (off : BitVec 4) : Applied s (.regRead off) { s with hostData := s.regRead off }
  /-- A byte of memory written by the host or another agent (R258, R305). -/
  | stored (addr : Word) (byte : Byte) : addr.toNat < 2 ^ s.params.aw →
      Applied s (.memWrite addr byte)
        { s with
          mem := Memory.write s.mem addr.toNat byte,
          srcDisturbed := s.srcDisturbed || (s.busy && s.inSource addr.toNat) }
  /-- A byte of memory read by the host (R258, R307). -/
  | fetched (addr data : Word) (count : Nat) :
      Applied s (.memRead addr) { s with hostData := data, freeCount := count }
  /-- The hardware reset (R50, R301). -/
  | cleared : Applied s .reset s.abandonCommand.clearRegisters
  /-- The block's turn with no command in flight (R292). -/
  | idle : s.busy = false → Applied s .pdc s
  /-- The block's turn with a command in flight (R254). -/
  | completed (t : State) : s.busy = true → Completes s t → Applied s .pdc t

theorem applied_of_regWrite {off : BitVec 4} {data : Word} {s t : State}
    (h : applyInput (.regWrite off data) s = .next t) : Applied s (.regWrite off data) t := by
  cases hstart : startOf off data with
  | none =>
    rw [applyInput_regWrite hstart] at h
    cases h
    exact .written off data
  | some i =>
    obtain ⟨rfl, hbit, rfl⟩ := startOf_eq_some hstart
    rw [applyInput_start hstart] at h
    cases hb : s.busy with
    | false =>
      rw [exec_start_idle hb] at h
      cases h
      exact .begun data hbit hb
    | true =>
      rw [exec_start_busy hb] at h
      cases h
      exact .dropped data hb

theorem applied_of_pdcTurn {s t : State} (h : pdcTurn s = .next t) : Applied s .pdc t := by
  cases hb : s.busy with
  | false =>
    rw [pdcTurn_idle hb] at h
    cases h
    exact .idle hb
  | true =>
    rw [pdcTurn_busy hb] at h
    exact .completed t hb (completes_of_exec h)

theorem applied_of_applyInput {input : Input} {s t : State} (h : applyInput input s = .next t) :
    Applied s input t := by
  cases input with
  | regWrite off data => exact applied_of_regWrite h
  | regRead off => cases h; exact .read off
  | memWrite addr byte =>
    obtain ⟨haddr, -, rfl⟩ := hostMemWrite_next h
    exact .stored addr byte haddr
  | memRead addr =>
    obtain ⟨-, data, count, rfl⟩ := hostMemRead_next h
    exact .fetched addr data count
  | reset => cases h; exact .cleared
  | pdc => exact applied_of_pdcTurn h

/-- The inversion of `step`. -/
theorem applied_of_step {s t : State} (h : step s = .next t) : Applied s.advanced s.nextInput t :=
  applied_of_applyInput (step_eq s ▸ h)

/-! ### What stops the machine -/

theorem hostMemWrite_eq_fault_iff (addr : Word) (byte : Byte) (s : State) (f : Fault) :
    hostMemWrite addr byte s = .fault f ↔ f = .noSuchAddress ∧ 2 ^ s.params.aw ≤ addr.toNat := by
  unfold hostMemWrite
  split
  · simp [*]
  · split <;> simp [*]

theorem hostMemWrite_eq_refused_iff (addr : Word) (byte : Byte) (s : State) (r : Refusal) :
    hostMemWrite addr byte s = .refused r ↔
      r = .destinationWriteWhileBusy ∧ s.busy = true ∧ addr.toNat < 2 ^ s.params.aw
        ∧ s.inDestination addr.toNat = true := by
  unfold hostMemWrite
  split
  · simp [Nat.not_lt.2 ‹_›]
  · rename_i haddr
    split
    · rename_i hdst
      obtain ⟨hb, hdst⟩ := Bool.and_eq_true_iff.1 hdst
      simp [hb, hdst, Nat.lt_of_not_le haddr, eq_comm]
    · rename_i hdst
      simpa using fun _ hb _ => by simpa [hb] using hdst

theorem hostMemRead_eq_fault_iff (addr : Word) (s : State) (f : Fault) :
    hostMemRead addr s = .fault f ↔ f = .noSuchAddress ∧ 2 ^ s.params.aw ≤ addr.toNat := by
  unfold hostMemRead
  split
  · simp [*]
  · split <;> simp [*]

theorem hostMemRead_ne_refused (addr : Word) (s : State) (r : Refusal) : hostMemRead addr s ≠ .refused r := by
  unfold hostMemRead
  split
  · simp
  · split <;> simp

theorem exec_answers (i : Instr) (s : State) : ∃ t, exec i s = .next t := by
  obtain ⟨t, ht, -⟩ := exec_cases i s
  exact ⟨t, ht⟩

theorem applyInput_regWrite_answers (off : BitVec 4) (data : Word) (s : State) :
    ∃ t, applyInput (.regWrite off data) s = .next t := by
  cases hstart : startOf off data with
  | none => exact ⟨_, applyInput_regWrite hstart s⟩
  | some i => rw [applyInput_start hstart]; exact exec_answers i s

theorem pdcTurn_answers (s : State) : ∃ t, pdcTurn s = .next t := by
  cases hb : s.busy with
  | false => exact ⟨s, pdcTurn_idle hb⟩
  | true => rw [pdcTurn_busy hb]; exact exec_answers s.command s

/-- An input is a memory write, a memory read, or neither and then it has a next state. -/
theorem applyInput_cases (input : Input) (s : State) :
    (∃ addr byte, input = .memWrite addr byte) ∨ (∃ addr, input = .memRead addr)
      ∨ ((∀ addr byte, input ≠ .memWrite addr byte) ∧ (∀ addr, input ≠ .memRead addr)
          ∧ ∃ t, applyInput input s = .next t) := by
  cases input with
  | memWrite addr byte => exact .inl ⟨addr, byte, rfl⟩
  | memRead addr => exact .inr (.inl ⟨addr, rfl⟩)
  | regWrite off data => exact .inr (.inr ⟨by simp, by simp, applyInput_regWrite_answers off data s⟩)
  | regRead off => exact .inr (.inr ⟨by simp, by simp, _, rfl⟩)
  | reset => exact .inr (.inr ⟨by simp, by simp, _, rfl⟩)
  | pdc => exact .inr (.inr ⟨by simp, by simp, pdcTurn_answers s⟩)

theorem applyInput_eq_fault_iff (input : Input) (s : State) (f : Fault) :
    applyInput input s = .fault f ↔
      f = .noSuchAddress ∧ ∃ addr, 2 ^ s.params.aw ≤ addr.toNat
        ∧ ((∃ byte, input = .memWrite addr byte) ∨ input = .memRead addr) := by
  rcases applyInput_cases input s with ⟨addr, byte, rfl⟩ | ⟨addr, rfl⟩ | ⟨hwrite, hread, t, ht⟩
  · simpa [applyInput] using hostMemWrite_eq_fault_iff addr byte s f
  · simpa [applyInput] using hostMemRead_eq_fault_iff addr s f
  · simp [ht, hwrite, hread]

theorem applyInput_eq_refused_iff (input : Input) (s : State) (r : Refusal) :
    applyInput input s = .refused r ↔
      r = .destinationWriteWhileBusy ∧ s.busy = true ∧ ∃ addr byte, input = .memWrite addr byte
        ∧ addr.toNat < 2 ^ s.params.aw ∧ s.inDestination addr.toNat = true := by
  rcases applyInput_cases input s with ⟨addr, byte, rfl⟩ | ⟨addr, rfl⟩ | ⟨hwrite, hread, t, ht⟩
  · simpa [applyInput] using hostMemWrite_eq_refused_iff addr byte s r
  · simpa [applyInput] using hostMemRead_ne_refused addr s r
  · simp [ht, hwrite]

@[simp] theorem State.inDestination_inputs (s : State) (l : List Input) (a : Nat) :
    State.inDestination { s with inputs := l } a = s.inDestination a := rfl

theorem step_eq_fault_iff (s : State) (f : Fault) :
    step s = .fault f ↔
      f = .noSuchAddress ∧ ∃ addr rest, 2 ^ s.params.aw ≤ addr.toNat
        ∧ ((∃ byte, s.inputs = .memWrite addr byte :: rest) ∨ s.inputs = .memRead addr :: rest) := by
  cases hin : s.inputs with
  | nil =>
    obtain ⟨t, ht⟩ := pdcTurn_answers s
    simp [step_nil hin, ht]
  | cons input rest =>
    rw [step_cons hin, applyInput_eq_fault_iff]
    simp [← or_and_right]

theorem step_eq_refused_iff (s : State) (r : Refusal) :
    step s = .refused r ↔
      r = .destinationWriteWhileBusy ∧ s.busy = true ∧ ∃ addr byte rest, s.inputs = .memWrite addr byte :: rest
        ∧ addr.toNat < 2 ^ s.params.aw ∧ s.inDestination addr.toNat = true := by
  cases hin : s.inputs with
  | nil =>
    obtain ⟨t, ht⟩ := pdcTurn_answers s
    simp [step_nil hin, ht]
  | cons input rest =>
    rw [step_cons hin, applyInput_eq_refused_iff]
    simp

/-- Settles O53: only a memory access can stop the machine, by `applyInput_cases`. -/
theorem onlyTwoThingsStopTheMachine : Obligations.OnlyTwoThingsStopTheMachine :=
  fun s => ⟨step_eq_fault_iff s, step_eq_refused_iff s⟩

end Sys2Proof.Machine
end

