-- ==== Sys2Proof/Proofs/Invariant.lean ====
section
/-! PROOF. The invariant: it holds after reset, and every input keeps it. Memory stays canonical and inside the address
space because every write of a command lies in a range the geometry check has passed (20_memory.md R72); the status
registers stay legal because only START, a completion and reset write them. -/

namespace Sys2Proof.Machine

open Sys2Proof.Safety

/-! ### Memory stays inside the address space -/

/-- The geometry of a command that reaches memory (R124). -/
theorem geometry_of_producesRaster {s : State} (h : s.producesRaster = true) :
    0 < s.w ∧ 0 < s.h ∧ s.srcAddr.toNat + s.srcLen.toNat ≤ 2 ^ s.params.aw
      ∧ s.dstAddr.toNat + s.rasterLength ≤ 2 ^ s.params.aw := by
  simp only [State.producesRaster, Bool.and_eq_true, Bool.not_eq_true'] at h
  obtain ⟨-, hgeom⟩ := h
  obtain ⟨hw, hh, -, -, hsrc, hdst⟩ := (geometryFails_eq_false_iff _ s).1 hgeom
  exact ⟨hw, hh, hsrc, hdst⟩

theorem State.storeRaster_below {s : State} {bound : Nat} (out : Nat → Nat → Channel → Byte)
    (hm : Memory.below s.mem bound = true) (hsrc : s.srcAddr.toNat + s.srcLen.toNat ≤ bound)
    (hdst : s.dstAddr.toNat + s.rasterLength ≤ bound) : Memory.below (s.storeRaster out).mem bound = true := by
  unfold State.storeRaster
  split
  · exact Memory.below_writeFree (Memory.below_writeFree hm hsrc) hdst
  · split
    · exact Memory.below_writeFree hm hdst
    · exact Memory.below_writeBytes hm (by simpa [State.rasterLength] using hdst)

/-- An abandoned command has free bytes in its destination range if it would have written a raster; else memory is as
it was (R301). -/
theorem State.abandonCommand_mem_cases (s : State) :
    s.abandonCommand.mem = s.mem
      ∨ (s.producesRaster = true
          ∧ s.abandonCommand.mem = Memory.writeFree s.mem s.dstAddr.toNat s.destinationLength s.freeCount) := by
  unfold State.abandonCommand
  split
  · cases hp : s.producesRaster with
    | true => exact .inr ⟨rfl, rfl⟩
    | false =>
      refine .inl ?_
      rw [State.destinationLength, hp]
      rfl
  · exact .inl rfl

theorem State.abandonCommand_wf {s : State} (hm : Memory.wf s.mem = true) :
    Memory.wf s.abandonCommand.mem = true := by
  rcases s.abandonCommand_mem_cases with h | ⟨-, h⟩
  · rwa [h]
  · rw [h]; exact Memory.wf_writeFree hm _ _ _

theorem State.abandonCommand_below {s : State} (hm : Memory.below s.mem (2 ^ s.params.aw) = true) :
    Memory.below s.abandonCommand.mem (2 ^ s.params.aw) = true := by
  rcases s.abandonCommand_mem_cases with h | ⟨hp, h⟩
  · rwa [h]
  · rw [h]; exact Memory.below_writeFree hm (destination_bound hp)

/-! ### The status registers stay legal -/

/-- Legality speaks of the five status registers and AW alone. -/
theorem resultLegal_of_sameStatus {s t : State} (hs : SameStatus s t) (hp : t.params = s.params)
    (h : ResultLegal s) : ResultLegal t := by
  obtain ⟨hstatus, herror, herrinfo, haddr, hlen⟩ := hs
  rw [ResultLegal, ResultsClear, hstatus, herror, herrinfo, haddr, hlen, hp]
  exact h

/-- The legal status registers while BUSY = 1 (R252). -/
theorem status_of_busy {s : State} (h : ResultLegal s) (hb : s.busy = true) : s.status = 1 ∧ ResultsClear s := by
  rw [State.busy] at hb
  rcases h with ⟨hst, -⟩ | hbusy | ⟨hst, -⟩ | ⟨hst, -⟩ | ⟨hst, -⟩
  case inr.inl => exact hbusy
  all_goals
    rw [hst] at hb
    exact absurd hb (by decide)

/-- An accepted START leaves STATUS = 1 and clear results (R250). -/
theorem State.beginCommand_status_clear (s : State) : s.beginCommand.status = 1 ∧ ResultsClear s.beginCommand := by
  simp [ResultsClear]

/-- The result of a raster is a non-empty range of whole pixels in the address space (R33, R123, R124). -/
theorem resultLegal_completeRaster {s : State} (hwf : s.params.wf = true) (hp : s.producesRaster = true)
    (out : Nat → Nat → Channel → Byte) : ResultLegal (s.completeRaster out) := by
  obtain ⟨hw, hh, -, hdst⟩ := geometry_of_producesRaster hp
  have hlen : (s.completeRaster out).outLen.toNat = s.rasterLength := by
    simpa [State.completeRaster] using Nat.mod_eq_of_lt (rasterLength_lt hwf hdst)
  have hparams : (s.completeRaster out).params = s.params := by simp [State.completeRaster]
  refine .inr (.inr (.inl ⟨s.completeRaster_status out, rfl, rfl, ?_, ?_, ?_⟩))
  · rw [hlen, State.rasterLength]; positivity
  · rw [hlen, State.rasterLength, Nat.mul_assoc, Nat.mul_mod_right]
  · rw [hlen, hparams]; exact hdst

theorem resultLegal_of_completes {s t : State} (hwf : s.params.wf = true) (h : Completes s t) : ResultLegal t := by
  cases h with
  | failed kind hfits => exact .inr (.inr (.inr (.inr ⟨statusDone_failed, hfits, rfl, rfl⟩)))
  | compressed => exact .inr (.inr (.inr (.inl ⟨statusDone_compressed, rfl, rfl⟩)))
  | raster out hp => exact resultLegal_completeRaster hwf hp out

/-! ### Every input keeps the invariant -/

/-- A state with the same memory, parameters, status registers and mark. -/
theorem inv_of_same {s t : State} (hs : Inv s) (hparams : t.params = s.params) (hmem : t.mem = s.mem)
    (hstatus : SameStatus s t) (hmark : t.srcDisturbed = s.srcDisturbed) : Inv t := by
  obtain ⟨hwf, hcanon, hbelow, hlegal, hdist⟩ := hs
  refine ⟨by rwa [hparams], by rwa [hmem], by rwa [hmem, hparams], resultLegal_of_sameStatus hstatus hparams hlegal, ?_⟩
  rw [State.busy, hmark, hstatus.1]
  exact hdist

theorem inv_beginCommand {s : State} (hs : Inv s) : Inv s.beginCommand := by
  obtain ⟨hwf, hcanon, hbelow, -, -⟩ := hs
  exact ⟨hwf, hcanon, hbelow, .inr (.inl s.beginCommand_status_clear), fun h => Bool.noConfusion h⟩

theorem inv_memWrite {s : State} (hs : Inv s) {addr : Word} (haddr : addr.toNat < 2 ^ s.params.aw) (byte : Byte) :
    Inv { s with
      mem := Memory.write s.mem addr.toNat byte,
      srcDisturbed := s.srcDisturbed || (s.busy && s.inSource addr.toNat) } := by
  obtain ⟨hwf, hcanon, hbelow, hlegal, hdist⟩ := hs
  refine ⟨hwf, Memory.wf_write hcanon _ _, Memory.below_write hbelow haddr _, hlegal, fun hmark => ?_⟩
  rcases Bool.or_eq_true_iff.1 hmark with hold | hnew
  · exact hdist hold
  · exact (Bool.and_eq_true_iff.1 hnew).1

theorem inv_hardwareReset {s : State} (hs : Inv s) : Inv s.abandonCommand.clearRegisters := by
  obtain ⟨hwf, hcanon, hbelow, -, -⟩ := hs
  refine ⟨?_, State.abandonCommand_wf hcanon, ?_, .inl ⟨rfl, rfl, rfl, rfl, rfl⟩, fun h => Bool.noConfusion h⟩
  · rwa [State.clearRegisters_params, State.abandonCommand_params]
  · rw [State.clearRegisters_params, State.abandonCommand_params]
    exact State.abandonCommand_below hbelow

theorem Completes.mem_wf {s t : State} (h : Completes s t) (hm : Memory.wf s.mem = true) :
    Memory.wf t.mem = true := by
  cases h with
  | failed | compressed => exact hm
  | raster out => exact State.storeRaster_wf out hm

theorem Completes.mem_below {s t : State} (h : Completes s t) (hm : Memory.below s.mem (2 ^ s.params.aw) = true) :
    Memory.below t.mem (2 ^ s.params.aw) = true := by
  cases h with
  | failed | compressed => exact hm
  | raster out hp =>
    obtain ⟨-, -, hsrc, hdst⟩ := geometry_of_producesRaster hp
    exact State.storeRaster_below out hm hsrc hdst

theorem Completes.params_eq {s t : State} (h : Completes s t) : t.params = s.params := by
  cases h with
  | failed | compressed => rfl
  | raster out => exact s.storeRaster_params out

theorem Completes.undisturbed {s t : State} (h : Completes s t) : t.srcDisturbed = false := by
  cases h <;> rfl

theorem inv_of_completes {s t : State} (hs : Inv s) (h : Completes s t) : Inv t := by
  obtain ⟨hwf, hcanon, hbelow, -, -⟩ := hs
  refine ⟨?_, h.mem_wf hcanon, ?_, resultLegal_of_completes hwf h, fun hmark => ?_⟩
  · rwa [h.params_eq]
  · rw [h.params_eq]; exact h.mem_below hbelow
  · rw [h.undisturbed] at hmark; exact Bool.noConfusion hmark

theorem Applied.keeps_inv {input : Input} {s t : State} (h : Applied s input t) (hs : Inv s) : Inv t := by
  cases h with
  | begun => exact inv_beginCommand hs
  | dropped | idle => exact hs
  | written off data => exact inv_of_same hs (by simp) (by simp) (by simp [SameStatus]) (by simp)
  | read | fetched => exact inv_of_same hs rfl rfl ⟨rfl, rfl, rfl, rfl, rfl⟩ rfl
  | stored addr byte haddr => exact inv_memWrite hs haddr byte
  | cleared => exact inv_hardwareReset hs
  | completed t _ hcomp => exact inv_of_completes hs hcomp

/-! ### The statements -/

/-- Settles O41: the five parts of `Inv`, each by evaluation. -/
theorem resetMeetsTheInvariant : Obligations.ResetMeetsTheInvariant :=
  ⟨by decide, rfl, rfl, .inl ⟨rfl, rfl, rfl, rfl, rfl⟩, fun h => Bool.noConfusion h⟩

/-- Settles O42: `Applied.keeps_inv` on the state less its input, of which the invariant says the same. -/
theorem everyStepKeepsTheInvariant : Obligations.EveryStepKeepsTheInvariant := by
  intro s t hs h
  have hadvanced : Inv s.advanced := inv_of_same hs rfl rfl ⟨rfl, rfl, rfl, rfl, rfl⟩ rfl
  exact (applied_of_step h).keeps_inv hadvanced

/-- Settles O46, by `status_of_busy`. -/
theorem busyStatusReadsAsOne : Obligations.BusyStatusReadsAsOne := by
  intro s hs hb
  obtain ⟨-, -, -, hlegal, -⟩ := hs
  exact status_of_busy hlegal hb

end Sys2Proof.Machine
end

