-- ==== Sys2Proof/Proofs/StateChanges.lean ====
section
/-! PROOF. Which inputs change what: operand registers, status registers and memory each have few writers
(10_state.md R20 to R34; 20_memory.md R67; 70_reset_and_hazards.md R301). -/

namespace Sys2Proof.Machine

open Sys2Proof.Safety

/-! ### The ranges as inequalities -/

theorem State.inDestination_eq_false_iff (s : State) (a : Nat) :
    s.inDestination a = false ↔ a < s.dstAddr.toNat ∨ s.dstAddr.toNat + s.destinationLength ≤ a := by
  simp [State.inDestination, imp_iff_not_or]

theorem State.inSource_eq_false_iff (s : State) (a : Nat) :
    s.inSource a = false ↔ a < s.srcAddr.toNat ∨ s.srcAddr.toNat + s.srcLen.toNat ≤ a := by
  simp [State.inSource, imp_iff_not_or]

/-! ### Reset -/

theorem State.abandonCommand_idle {s : State} (h : s.busy = false) : s.abandonCommand = s := by
  simp [State.abandonCommand, h]

theorem State.abandonCommand_read_of_not_inDestination {s : State} {a : Nat} (h : s.inDestination a = false) :
    Memory.read s.abandonCommand.mem a = Memory.read s.mem a :=
  s.abandonCommand_read_outside fun _ => (s.inDestination_eq_false_iff a).1 h

/-- Settles O43: the command is abandoned, then every register is cleared. -/
theorem hardwareResetClearsTheRegisters : Obligations.HardwareResetClearsTheRegisters := by
  intro s rest hin
  refine ⟨_, step_cons hin, State.regRead_clearRegisters _, State.clearRegisters_busy _, ?_, ?_, fun hb => ?_,
    fun a ha => ?_⟩
  · simp
  · simp
  · rw [State.clearRegisters_mem, State.abandonCommand_idle (s := { s with inputs := rest }) hb]
  · exact State.abandonCommand_read_of_not_inDestination (s := { s with inputs := rest }) ha

/-! ### Operand registers -/

/-- R20, R26: a write changes an operand register only while BUSY = 0, and only at the six operand offsets. -/
theorem idle_operand_of_regWrite_changes {s : State} {off : BitVec 4} {data : Word}
    (h : ¬SameOperands s (s.regWrite off data)) : off.toNat < 6 ∧ s.busy = false := by
  by_contra hnot
  have hignored : s.busy = true ∨ 6 ≤ off.toNat :=
    (not_and_or.1 hnot).symm.imp (Bool.not_eq_false _ ▸ ·) Nat.le_of_not_lt
  rw [State.regWrite_of_ignored hignored] at h
  exact h ⟨rfl, rfl, rfl, rfl, rfl, rfl⟩

theorem Applied.operands_change {input : Input} {s t : State} (h : Applied s input t) (hne : ¬SameOperands s t) :
    (∃ off data, input = .regWrite off data ∧ off.toNat < 6 ∧ s.busy = false) ∨ input = .reset := by
  cases h with
  | written off data => exact .inl ⟨off, data, rfl, idle_operand_of_regWrite_changes hne⟩
  | cleared => exact .inr rfl
  | completed t _ hcomp => exact absurd hcomp.keeps_operands hne
  | begun | dropped | read | stored | fetched | idle => exact absurd ⟨rfl, rfl, rfl, rfl, rfl, rfl⟩ hne

/-- Settles O47, by `Applied.operands_change`. -/
theorem operandsChangeOnlyByIdleWritesOrReset : Obligations.OperandsChangeOnlyByIdleWritesOrReset := by
  intro s t h hne
  rcases (applied_of_step h).operands_change hne with ⟨off, data, hin, hoff, hb⟩ | hin
  · obtain ⟨rest, hrest⟩ := (s.nextInput_eq_iff Input.noConfusion).1 hin
    exact .inl ⟨off, data, rest, hrest, hoff, hb⟩
  · exact .inr ((s.nextInput_eq_iff Input.noConfusion).1 hin)

/-! ### Status registers -/

theorem Applied.status_change {input : Input} {s t : State} (h : Applied s input t) (hne : ¬SameStatus s t) :
    (s.busy = false ∧ t.status = 1 ∧ ResultsClear t ∧ ∃ data, input = .regWrite 6 data ∧ data.getLsbD 0 = true)
      ∨ (s.busy = true ∧ t.busy = false ∧ t.done = true ∧ input = .pdc) ∨ input = .reset := by
  cases h with
  | begun data hbit hb =>
    obtain ⟨hstatus, hclear⟩ := s.beginCommand_status_clear
    exact .inl ⟨hb, hstatus, hclear, data, rfl, hbit⟩
  | completed t hb hcomp =>
    obtain ⟨hidle, hdone⟩ := hcomp.done
    exact .inr (.inl ⟨hb, hidle, hdone, rfl⟩)
  | cleared => exact .inr (.inr rfl)
  | written off data => exact absurd (by simp [SameStatus]) hne
  | dropped | read | stored | fetched | idle => exact absurd ⟨rfl, rfl, rfl, rfl, rfl⟩ hne

/-- Settles O48, by `Applied.status_change`. -/
theorem statusChangesOnlyAtStartCompletionReset : Obligations.StatusChangesOnlyAtStartCompletionReset := by
  intro s t h hne
  rcases (applied_of_step h).status_change hne with
    ⟨hb, hstatus, hclear, data, hin, hbit⟩ | ⟨hb, hidle, hdone, hin⟩ | hin
  · obtain ⟨rest, hrest⟩ := (s.nextInput_eq_iff Input.noConfusion).1 hin
    exact .inl ⟨hb, hstatus, hclear, data, rest, hrest, hbit⟩
  · exact .inr (.inl ⟨hb, hidle, hdone, s.nextInput_eq_pdc_iff.1 hin⟩)
  · exact .inr (.inr ((s.nextInput_eq_iff Input.noConfusion).1 hin))

/-! ### Memory -/

/-- R67, R306: a completing command changes bytes of its destination range only, and of its source buffer when the two
overlap; and only if it writes a raster. -/
theorem Completes.mem_change {s t : State} (h : Completes s t) {a : Nat}
    (hne : Memory.read t.mem a ≠ Memory.read s.mem a) :
    s.producesRaster = true
      ∧ (s.inDestination a = true ∨ (s.rangesOverlap = true ∧ s.inSource a = true)) := by
  cases h with
  | failed | compressed => exact absurd rfl hne
  | raster out hp =>
    refine ⟨hp, ?_⟩
    by_contra hnot
    rw [not_or, not_and, Bool.not_eq_true, Bool.not_eq_true, State.inDestination_eq_false_iff,
      State.inSource_eq_false_iff, State.destinationLength, if_pos hp] at hnot
    obtain ⟨hdst, hsrc⟩ := hnot
    exact hne (s.storeRaster_read_outside out hdst hsrc)

theorem Applied.mem_change {input : Input} {s t : State} (h : Applied s input t) {a : Nat}
    (hne : Memory.read t.mem a ≠ Memory.read s.mem a) :
    (∃ addr byte, input = .memWrite addr byte ∧ addr.toNat = a)
      ∨ (s.busy = true ∧ input = .pdc ∧ s.producesRaster = true
          ∧ (s.inDestination a = true ∨ (s.rangesOverlap = true ∧ s.inSource a = true)))
      ∨ (s.busy = true ∧ input = .reset ∧ s.inDestination a = true) := by
  cases h with
  | stored addr byte =>
    refine .inl ⟨addr, byte, rfl, ?_⟩
    by_contra haddr
    exact hne (Memory.read_write_other _ _ _ (Ne.symm haddr))
  | completed t hb hcomp => exact .inr (.inl ⟨hb, rfl, hcomp.mem_change hne⟩)
  | cleared =>
    refine .inr (.inr ⟨?_, rfl, ?_⟩)
    · by_contra hb
      rw [State.clearRegisters_mem, State.abandonCommand_idle (Bool.not_eq_true _ ▸ hb)] at hne
      exact hne rfl
    · by_contra hdst
      exact hne (State.abandonCommand_read_of_not_inDestination (Bool.not_eq_true _ ▸ hdst))
  | written off data => rw [State.regWrite_mem] at hne; exact absurd rfl hne
  | begun | dropped | read | fetched | idle => exact absurd rfl hne

/-- Settles O50, by `Applied.mem_change`. -/
theorem memoryChangesOnlyByItsWriters : Obligations.MemoryChangesOnlyByItsWriters := by
  intro s t a h hne
  rcases (applied_of_step h).mem_change hne with ⟨addr, byte, hin, haddr⟩ | ⟨hb, hin, hraster⟩ | ⟨hb, hin, hdst⟩
  · obtain ⟨rest, hrest⟩ := (s.nextInput_eq_iff Input.noConfusion).1 hin
    exact .inl ⟨addr, byte, rest, hrest, haddr⟩
  · exact .inr (.inl ⟨hb, s.nextInput_eq_pdc_iff.1 hin, hraster⟩)
  · exact .inr (.inr ⟨hb, (s.nextInput_eq_iff Input.noConfusion).1 hin, hdst⟩)

end Sys2Proof.Machine
end

