-- ==== Sys2Proof/Proofs/DecodeEncode.lean ====
section
/-! PROOF. The decoder and the encoder are inverse to each other. A well-formed command's word is read as the command,
one case for each row of the table; and every FORMAT value is the word of a well-formed command, so no value is left
over and none loses a bit (30_encoding.md R91 to R97). -/

namespace Sys2Proof

/-! ### Every command's word decodes to the command -/

/-- The word of a well-formed command, in the command's own register, is read as that command (R95). -/
theorem decodeWord_encodeWord {i : Instr} (h : i.wellFormed = true) :
    decodeWord i.cmdReg (encodeWord i) = .ok i := by
  cases i with
  | decYuv422 => exact Laws.WordRoundTrip.decYuv422 h
  | decRgb24 => exact Laws.WordRoundTrip.decRgb24 h
  | decBgr24 => exact Laws.WordRoundTrip.decBgr24 h
  | decArgb32 => exact Laws.WordRoundTrip.decArgb32 h
  | decXrgb32 => exact Laws.WordRoundTrip.decXrgb32 h
  | decMjpeg => exact Laws.WordRoundTrip.decMjpeg h
  | decBayer8 pat => exact Laws.WordRoundTrip.decBayer8 pat h
  | decBayer10 pat => exact Laws.WordRoundTrip.decBayer10 pat h
  | decBayer12 pat => exact Laws.WordRoundTrip.decBayer12 pat h
  | decBayerBadBps bps pat => exact Laws.WordRoundTrip.decBayerBadBps bps pat h
  | decUnrecognised tag => exact Laws.WordRoundTrip.decUnrecognised tag h
  | start ignored => exact Laws.WordRoundTrip.start ignored h

theorem decodeFormat_encodeWord {i : Instr} (h : i.wellFormed = true) (hreg : i.cmdReg = .format) :
    decodeFormat (encodeWord i) = i := by
  have hdec := decodeWord_encodeWord h
  rw [hreg] at hdec
  exact Except.ok.inj hdec

/-- Settles O1: the bytes of a word decode as the word does, and a command's word is read as the command. -/
theorem decodeOfEncode : Obligations.DecodeOfEncode := by
  intro i h
  rw [encode, decode_bytesOfWord, decodeWord_encodeWord h]

/-! ### Every FORMAT value is a command's word -/

theorem legalBps_iff (bps : BitVec 8) : legalBps bps = true ↔ bps = 8 ∨ bps = 10 ∨ bps = 12 := by
  rw [legalBps, Bool.or_eq_true, Bool.or_eq_true, beq_iff_eq, beq_iff_eq, beq_iff_eq, or_assoc]

/-- A Bayer tag is the word of the row of its depth (R95 rows 7 to 10, R99). -/
theorem exists_encodeWord_eq_bayerTag (bps : BitVec 8) (pat : Pattern) :
    ∃ i : Instr, i.wellFormed = true ∧ i.cmdReg = .format ∧ encodeWord i = bayerTag bps pat := by
  cases hb : legalBps bps with
  | true =>
    rcases (legalBps_iff bps).1 hb with rfl | rfl | rfl
    · exact ⟨.decBayer8 pat, rfl, rfl, rfl⟩
    · exact ⟨.decBayer10 pat, rfl, rfl, rfl⟩
    · exact ⟨.decBayer12 pat, rfl, rfl, rfl⟩
  | false => exact ⟨.decBayerBadBps bps pat, by rw [Instr.wellFormed, hb, Bool.not_false], rfl, rfl⟩

/-- The encoder reaches every FORMAT value (R97). -/
theorem exists_encodeWord_eq (tag : Word) :
    ∃ i : Instr, i.wellFormed = true ∧ i.cmdReg = .format ∧ encodeWord i = tag := by
  rcases decodeFormat_cases tag with
    ⟨rfl, -⟩ | ⟨rfl, -⟩ | ⟨rfl, -⟩ | ⟨rfl, -⟩ | ⟨rfl, -⟩ | ⟨rfl, -⟩ | ⟨bps, pat, rfl⟩ | ⟨hr, -⟩
  · exact ⟨.decYuv422, rfl, rfl, rfl⟩
  · exact ⟨.decRgb24, rfl, rfl, rfl⟩
  · exact ⟨.decBgr24, rfl, rfl, rfl⟩
  · exact ⟨.decArgb32, rfl, rfl, rfl⟩
  · exact ⟨.decXrgb32, rfl, rfl, rfl⟩
  · exact ⟨.decMjpeg, rfl, rfl, rfl⟩
  · exact exists_encodeWord_eq_bayerTag bps pat
  · exact ⟨.decUnrecognised tag, by rw [Instr.wellFormed, hr, Bool.not_false], rfl, rfl⟩

/-- Settles O2: a FORMAT value is the word of a well-formed command, which is then the one it selects. -/
theorem everyFormatWordIsACommand : Obligations.EveryFormatWordIsACommand := by
  intro w
  obtain ⟨i, hwf, hreg, rfl⟩ := exists_encodeWord_eq w
  rw [decodeFormat_encodeWord hwf hreg]
  exact ⟨hwf, hreg, rfl⟩

/-! ### Words written out -/

/-- Bits side by side are a sum, the upper ones shifted. -/
theorem toNat_append_eq_add {m n : Nat} (a : BitVec m) (b : BitVec n) : (a ++ b).toNat = a.toNat * 2 ^ n + b.toNat := by
  rw [BitVec.toNat_append, ← Nat.shiftLeft_add_eq_or_of_lt b.isLt, Nat.shiftLeft_eq]

/-- The tag of a Bayer format is the number R102 computes from its two fields. -/
theorem ofNat_eq_bayerTag (bps : BitVec 8) (pat : Pattern) :
    BitVec.ofNat 32 (0x07 + bps.toNat * 2 ^ 8 + (patternByte pat).toNat * 2 ^ 16) = bayerTag bps pat := by
  have hbps := bps.isLt
  have hpat := (patternByte pat).isLt
  apply BitVec.eq_of_toNat_eq
  rw [bayerTag, toNat_append_eq_add, toNat_append_eq_add, toNat_append_eq_add]
  simp only [BitVec.toNat_ofNat]
  omega

/-- Settles O4: the number is the tag, and the tag selects the row of its depth. -/
theorem bayerTagSelectsItsDepth : Obligations.BayerTagSelectsItsDepth := by
  intro bps pat
  rw [ofNat_eq_bayerTag, decodeFormat_bayerTag]

/-- Settles O5: each FORMAT value is the word of the command it is to select, and the CTRL words are evaluated. -/
theorem writtenWordsDecode : Obligations.WrittenWordsDecode :=
  ⟨decodeFormat_encodeWord (i := .decYuv422) rfl rfl, decodeFormat_encodeWord (i := .decBgr24) rfl rfl,
    decodeFormat_encodeWord (i := .decBayer8 ⟨.r, .g, .g, .b⟩) rfl rfl,
    decodeFormat_encodeWord (i := .decBayer10 ⟨.g, .b, .r, .g⟩) rfl rfl,
    decodeFormat_encodeWord (i := .decBayer12 ⟨.b, .g, .g, .r⟩) rfl rfl,
    decodeFormat_encodeWord (i := .decBayerBadBps 14 ⟨.r, .g, .g, .x⟩) rfl rfl,
    decodeFormat_encodeWord (i := .decUnrecognised 0x80000006) rfl rfl, rfl, rfl⟩

end Sys2Proof
end

