-- ==== Sys2Proof/Proofs/CommandTable.lean ====
section
/-! PROOF. When the command table answers its last row: no row builds DEC.UNRECOGNISED, so `selectRow` gives it exactly
when every row's test fails (30_encoding.md R95, R96). -/

namespace Sys2Proof

/-! ### By the tests of the rows -/

/-- A table no row of which builds DEC.UNRECOGNISED answers it exactly when every test fails. -/
theorem selectRow_unrecognised_iff {rows : List FormatRow} {tag : Word}
    (hbuild : ∀ row ∈ rows, row.build tag ≠ .decUnrecognised tag) :
    selectRow rows tag = .decUnrecognised tag ↔ ∀ row ∈ rows, row.hits tag = false := by
  induction rows with
  | nil => simp [selectRow]
  | cons row later ih =>
    obtain ⟨hrow, hlater⟩ := List.forall_mem_cons.1 hbuild
    rw [selectRow, List.forall_mem_cons]
    cases hhit : row.hits tag with
    | true => simp [hrow]
    | false => simp [ih hlater]

/-- Rows 1 to 10 build a command of their own (R95). -/
theorem formatRows_build_ne (tag : Word) : ∀ row ∈ formatRows, row.build tag ≠ .decUnrecognised tag := by
  simp [formatRows]

theorem FormatRow.hits_eq_false_iff (row : FormatRow) (tag : Word) :
    row.hits tag = false ↔ tag &&& row.mask ≠ row.value := by
  rw [FormatRow.hits, beq_eq_false_iff_ne]

/-- Row 11 is selected exactly when the tests of rows 1 to 10, as pairs of a value and a mask, all fail (R96). -/
theorem decodeFormat_unrecognised_iff_tests (tag : Word) :
    decodeFormat tag = .decUnrecognised tag ↔
      ∀ test ∈ formatRows.map fun row => (row.value, row.mask), tag &&& test.2 ≠ test.1 := by
  rw [decodeFormat, selectRow_unrecognised_iff (formatRows_build_ne tag), List.forall_mem_map]
  simp only [FormatRow.hits_eq_false_iff]

/-! ### By the fields of the word -/

/-- Recognised tags as numbers: 1 to 6, or low byte 7 and high byte 0 (R96). -/
theorem recognisedTag_iff_toNat (tag : Word) :
    recognisedTag tag = true ↔
      (1 ≤ tag.toNat ∧ tag.toNat ≤ 6) ∨ (tag.toNat % 256 = 7 ∧ tag.toNat / 2 ^ 24 = 0) := by
  have htag := tag.isLt
  rw [recognisedTag, Bool.or_eq_true, Bool.and_eq_true, Bool.and_eq_true, decide_eq_true_eq, decide_eq_true_eq,
    beq_iff_eq, beq_iff_eq, ← BitVec.toNat_inj, ← BitVec.toNat_inj, BitVec.extractLsb'_toNat,
    BitVec.extractLsb'_toNat, Nat.shiftRight_eq_div_pow, Nat.shiftRight_eq_div_pow, show (7 : Byte).toNat = 7 from rfl,
    show (0 : Byte).toNat = 0 from rfl]
  omega

/-- Settles O3: the written pairs are the table's tests, and the fields are those of a recognised tag. -/
theorem unrecognisedExactlyOffTheRows : Obligations.UnrecognisedExactlyOffTheRows := by
  intro w
  refine ⟨decodeFormat_unrecognised_iff_tests w, ?_⟩
  rw [decodeFormat_unrecognised_iff, ← Bool.not_eq_true, recognisedTag_iff_toNat]

end Sys2Proof
end

