-- ==== Sys2Proof/Proofs/PatternSearch.lean ====
section
/-! PROOF. The pattern search by counting: an index search for a character succeeds exactly when the cell holds enough
of it, and a cell of four that holds at least one R, two G and one B holds no more of them (44_bayer_unpack.md R203). -/

namespace Sys2Proof.Machine

/-! ### The cell as a list -/

/-- PAT(0) to PAT(3) in order (R93). -/
def cellChars (pat : Pattern) : List PatChar := [pat.c0, pat.c1, pat.c2, pat.c3]

@[simp] theorem cellChars_length (pat : Pattern) : (cellChars pat).length = 4 := rfl

theorem cellChars_getElem (pat : Pattern) {k : Nat} (hk : k < (cellChars pat).length) :
    (cellChars pat)[k] = patternAt pat k := by
  rw [cellChars_length] at hk
  interval_cases k <;> rfl

/-- A cell holds a character once exactly when one of its indices does. -/
theorem one_le_count_iff (pat : Pattern) (c : PatChar) :
    1 ≤ (cellChars pat).count c ↔ ∃ k, k < 4 ∧ patternAt pat k = c := by
  rw [List.one_le_count_iff, List.mem_iff_getElem]
  constructor
  · rintro ⟨k, hk, hc⟩
    exact ⟨k, hk, (cellChars_getElem pat hk).symm.trans hc⟩
  · rintro ⟨k, hk, hc⟩
    exact ⟨k, hk, (cellChars_getElem pat hk).trans hc⟩

/-- A cell holds a character twice exactly when two of its indices do. -/
theorem two_le_count_iff (pat : Pattern) (c : PatChar) :
    2 ≤ (cellChars pat).count c ↔ ∃ j k, j < k ∧ k < 4 ∧ patternAt pat j = c ∧ patternAt pat k = c := by
  rw [← List.duplicate_iff_two_le_count, List.duplicate_iff_exists_distinct_get]
  constructor
  · rintro ⟨j, k, hjk, hj, hk⟩
    rw [List.get_eq_getElem, cellChars_getElem] at hj hk
    exact ⟨j, k, hjk, k.isLt, hj.symm, hk.symm⟩
  · rintro ⟨j, k, hjk, hk, hj, hc⟩
    refine ⟨⟨j, hjk.trans hk⟩, ⟨k, hk⟩, hjk, ?_, ?_⟩
    · rw [List.get_eq_getElem, cellChars_getElem, hj]
    · rw [List.get_eq_getElem, cellChars_getElem, hc]

theorem count_colours_le_length (chars : List PatChar) :
    chars.count .r + chars.count .g + chars.count .b ≤ chars.length := by
  induction chars with
  | nil => exact Nat.le_refl 0
  | cons c rest ih => cases c <;> simp <;> omega

/-! ### One index search -/

/-- Everything an index search tells: the index is in the cell, holds the character and is the least to do so (R203). -/
theorem leastIndex_eq_some_iff (pat : Pattern) (c : PatChar) (lo k : Nat) :
    leastIndex pat c lo = some k ↔
      lo ≤ k ∧ k < 4 ∧ patternAt pat k = c ∧ ∀ j, lo ≤ j → j < k → patternAt pat j ≠ c := by
  rw [leastIndex, List.find?_range_eq_some]
  simp only [Bool.and_eq_true, decide_eq_true_eq, beq_iff_eq, List.mem_range, Bool.not_eq_true', Bool.and_eq_false_imp,
    beq_eq_false_iff_ne]
  constructor
  · rintro ⟨⟨hlo, hc⟩, hk, hleast⟩
    exact ⟨hlo, hk, hc, fun j hj hjk => hleast j hjk hj⟩
  · rintro ⟨hlo, hk, hc, hleast⟩
    exact ⟨⟨hlo, hc⟩, hk, fun j hjk hj => hleast j hj hjk⟩

/-- An index search finds a character when an index from its start on holds it. -/
theorem leastIndex_isSome_iff (pat : Pattern) (c : PatChar) (lo : Nat) :
    (leastIndex pat c lo).isSome = true ↔ ∃ k, lo ≤ k ∧ k < 4 ∧ patternAt pat k = c := by
  rw [leastIndex, List.find?_isSome]
  simp only [List.mem_range, Bool.and_eq_true, decide_eq_true_eq, beq_iff_eq]
  exact exists_congr fun k => and_left_comm

theorem firstIndex_isSome_iff (pat : Pattern) (c : PatChar) :
    (leastIndex pat c 0).isSome = true ↔ 1 ≤ (cellChars pat).count c := by
  rw [leastIndex_isSome_iff, one_le_count_iff]
  simp only [Nat.zero_le, true_and]

/-- A second search, begun after what the first found, succeeds exactly when the cell holds the character twice. -/
theorem secondIndex_isSome_iff (pat : Pattern) (c : PatChar) :
    (∃ k, leastIndex pat c 0 = some k ∧ (leastIndex pat c (k + 1)).isSome = true) ↔ 2 ≤ (cellChars pat).count c := by
  rw [two_le_count_iff]
  constructor
  · rintro ⟨j, hj, hsome⟩
    obtain ⟨-, -, hcj, -⟩ := (leastIndex_eq_some_iff pat c 0 j).1 hj
    obtain ⟨k, hjk, hk, hck⟩ := (leastIndex_isSome_iff pat c (j + 1)).1 hsome
    exact ⟨j, k, hjk, hk, hcj, hck⟩
  · rintro ⟨j, k, hjk, hk, hcj, hck⟩
    have hfirst := (leastIndex_isSome_iff pat c 0).2 ⟨k, Nat.zero_le k, hk, hck⟩
    obtain ⟨i, hi⟩ := Option.isSome_iff_exists.1 hfirst
    obtain ⟨-, -, -, hleast⟩ := (leastIndex_eq_some_iff pat c 0 i).1 hi
    have hij : i ≤ j := Nat.le_of_not_lt fun hlt => hleast j (Nat.zero_le j) hlt hcj
    exact ⟨i, hi, (leastIndex_isSome_iff pat c (i + 1)).2 ⟨k, by omega, hk, hck⟩⟩

/-! ### The search for the four offsets -/

/-- The pattern search is its four index searches (R203). -/
theorem patternSearch_eq_some_iff (pat : Pattern) (o : BayerOffsets) :
    patternSearch pat = some o ↔
      ∃ iR iG0 iG1 iB, leastIndex pat .r 0 = some iR ∧ leastIndex pat .g 0 = some iG0
        ∧ leastIndex pat .g (iG0 + 1) = some iG1 ∧ leastIndex pat .b 0 = some iB
        ∧ o = ⟨cellOffset iR, cellOffset iG0, cellOffset iG1, cellOffset iB⟩ := by
  simp [patternSearch, Option.bind_eq_some_iff, eq_comm (a := o)]

/-- It succeeds exactly when the cell holds an R, two G and a B. -/
theorem patternSearch_isSome_iff (pat : Pattern) :
    (patternSearch pat).isSome = true ↔
      1 ≤ (cellChars pat).count .r ∧ 2 ≤ (cellChars pat).count .g ∧ 1 ≤ (cellChars pat).count .b := by
  rw [← firstIndex_isSome_iff, ← firstIndex_isSome_iff, ← secondIndex_isSome_iff]
  simp only [Option.isSome_iff_exists, patternSearch_eq_some_iff]
  constructor
  · rintro ⟨-, iR, iG0, iG1, iB, hR, hG0, hG1, hB, rfl⟩
    exact ⟨⟨iR, hR⟩, ⟨iG0, hG0, iG1, hG1⟩, ⟨iB, hB⟩⟩
  · rintro ⟨⟨iR, hR⟩, ⟨iG0, hG0, iG1, hG1⟩, ⟨iB, hB⟩⟩
    exact ⟨_, iR, iG0, iG1, iB, hR, hG0, hG1, hB, rfl⟩

/-- The index of a cell position is twice its row plus its column (R99). -/
theorem cellOffset_index {k : Nat} (hk : k < 4) :
    (cellOffset k).col.val + 2 * (cellOffset k).row.val = k := by
  interval_cases k <;> rfl

/-- Settles O6: each index search by what it tells, and the counts by the four places of the cell. -/
theorem patternSearchFindsTheChannels : Obligations.PatternSearchFindsTheChannels := by
  intro pat
  constructor
  · rw [patternSearch_isSome_iff]
    have hsum := count_colours_le_length (cellChars pat)
    rw [cellChars_length] at hsum
    change _ ↔ (cellChars pat).count .r = 1 ∧ (cellChars pat).count .g = 2 ∧ (cellChars pat).count .b = 1
    omega
  · intro o ho
    obtain ⟨iR, iG0, iG1, iB, hR, hG0, hG1, hB, rfl⟩ := (patternSearch_eq_some_iff pat o).1 ho
    obtain ⟨-, hR4, hRc, -⟩ := (leastIndex_eq_some_iff ..).1 hR
    obtain ⟨-, hG04, hG0c, -⟩ := (leastIndex_eq_some_iff ..).1 hG0
    obtain ⟨hlt, hG14, hG1c, -⟩ := (leastIndex_eq_some_iff ..).1 hG1
    obtain ⟨-, hB4, hBc, -⟩ := (leastIndex_eq_some_iff ..).1 hB
    rw [cellOffset_index hR4, cellOffset_index hG04, cellOffset_index hG14, cellOffset_index hB4]
    exact ⟨hRc, hG0c, hG1c, hBc, hlt⟩

end Sys2Proof.Machine
end

