-- ==== Sys2Proof/Proofs/PlacedWord.lean ====
section
/-! PROOF. A table row's word placed for fetch is what the next step runs: a FORMAT word at the block's turn, a CTRL
word at the host's write (30_encoding.md R95; 47_host_control.md R250, R251). -/

namespace Sys2Proof.Machine

theorem decodeTableWord_eq_some {nbits w : Nat} {i : Instr} (h : decodeTableWord nbits w = some i) :
    decodeWord (tableReg nbits) (BitVec.ofNat 32 w) = .ok i := by
  rw [decodeTableWord, decode_bytesOfWord] at h
  cases hdec : decodeWord (tableReg nbits) (BitVec.ofNat 32 w) with
  | ok j =>
    rw [hdec] at h
    exact congrArg _ (Option.some.inj h)
  | error r =>
    rw [hdec] at h
    cases h

/-- A word in FORMAT whose START was accepted runs at the block's turn (R95, R251). -/
theorem step_withFetchWord_format {nbits : Nat} (hreg : tableReg nbits = .format) (s : State) (w : Nat) :
    step (s.withFetchWord nbits w) =
      exec (decodeFormat (BitVec.ofNat 32 w)) (State.beginCommand { s with format := BitVec.ofNat 32 w }) := by
  have hin : (s.withFetchWord nbits w).inputs = .pdc :: s.inputs := by rw [State.withFetchWord, hreg]
  have hrest : { s.withFetchWord nbits w with inputs := s.inputs } =
      State.beginCommand { s with format := BitVec.ofNat 32 w } := by rw [State.withFetchWord, hreg]; rfl
  rw [step_cons hin, hrest, applyInput, pdcTurn_busy (State.beginCommand_busy _)]
  rfl

/-- A word written to CTRL runs at the write (R250). -/
theorem step_withFetchWord_ctrl {nbits w : Nat} {i : Instr} (hreg : tableReg nbits = .ctrl)
    (hdec : decodeCtrl (BitVec.ofNat 32 w) = .ok i) (s : State) : step (s.withFetchWord nbits w) = exec i s := by
  have hin : (s.withFetchWord nbits w).inputs = .regWrite 6 (BitVec.ofNat 32 w) :: s.inputs := by
    rw [State.withFetchWord, hreg]; rfl
  have hrest : { s.withFetchWord nbits w with inputs := s.inputs } = s := by rw [State.withFetchWord, hreg]
  have hbytes : decode .ctrl (bytesOfWord (BitVec.ofNat 32 w)) = .ok i := by rw [decode_bytesOfWord, decodeWord, hdec]
  rw [step_cons hin, hrest, applyInput_start (startOf_ctrl_of_decode hbytes)]

/-- Settles O10: one case for each command register. -/
theorem placedWordRunsNext : Obligations.PlacedWordRunsNext := by
  intro s nbits w i h
  have hdec := decodeTableWord_eq_some h
  cases hreg : tableReg nbits with
  | format =>
    rw [hreg] at hdec
    obtain rfl : decodeFormat (BitVec.ofNat 32 w) = i := Except.ok.inj hdec
    refine ⟨_, step_withFetchWord_format hreg s w, rfl, rfl, rfl, rfl, rfl, rfl, rfl, rfl, fun hctrl => ?_⟩
    rw [decodeFormat_cmdReg] at hctrl
    cases hctrl
  | ctrl =>
    rw [hreg] at hdec
    exact ⟨s, step_withFetchWord_ctrl hreg hdec s, rfl, rfl, rfl, rfl, rfl, rfl, rfl, rfl, fun _ => rfl⟩

end Sys2Proof.Machine
end

