-- ==== Sys2Proof/Proofs/CommandSelection.lean ====
section
/-! PROOF. The block's turn runs the command its FORMAT bytes decode to, and what the last row of the command table does
(40_dispatch_geometry.md R120 to R122). -/

namespace Sys2Proof.Machine

open Sys2Proof.Safety

/-- The bytes of FORMAT decode to the command its register selects (R95, R121). -/
theorem State.command_of_decode {s : State} {i : Instr} (h : decode .format (bytesOfWord s.format) = .ok i) :
    s.command = i := by
  rw [decode_bytesOfWord] at h
  exact Except.ok.inj h

/-- Settles O7: both ways the turn arises end in `pdcTurn`, and the input taken is no part of the selection. -/
theorem stepRunsTheSelectedCommand : Obligations.StepRunsTheSelectedCommand := by
  intro s i hbusy hdec
  have hcmd := State.command_of_decode hdec
  constructor
  · intro hin
    rw [step_nil hin, pdcTurn_busy hbusy, hcmd]
  · intro rest hin
    rw [step_cons hin, applyInput, pdcTurn_busy (by rwa [State.busy_inputs]), State.command_inputs, hcmd]

/-- DEC.UNRECOGNISED raises UnsupportedFormat from every state (R122). -/
theorem exec_decUnrecognised (tag : Word) (s : State) : exec (.decUnrecognised tag) s = .next (failedWith 1 s) := by
  rw [exec, execDecUnrecognised, raise_eq_failedWith, errorWord]

/-- Settles O14, by `decodeFormat_unrecognised_iff` and `exec_decUnrecognised`; the tag 0 is no recognised one. -/
theorem unrecognisedAlwaysFails : Obligations.UnrecognisedAlwaysFails :=
  ⟨(decodeFormat_unrecognised_iff 0).2 (by decide), fun tag => (decodeFormat_unrecognised_iff tag).2,
    exec_decUnrecognised⟩

end Sys2Proof.Machine
end

