-- ==== Sys2Proof/Proofs/GeometryCheck.lean ====
section
/-! PROOF. When GeometryMismatch is raised (40_dispatch_geometry.md R124). The one idea: a command that passes steps 2
to 5 of R120 is `rasterCommand` on some samples, and `rasterCommand` is decided by the geometry check alone. -/

namespace Sys2Proof.Machine

open Sys2Proof.Safety

/-! ### The check as conditions (a) to (e) -/

/-- One of R124 (a) to (e) holds for the command `i` of `bpp` source bytes per pixel. -/
def GeometryMisfits (i : Instr) (bpp : Nat) (s : State) : Prop :=
  s.w = 0 ∨ s.h = 0 ∨ (i = .decYuv422 ∧ s.w % 2 = 1) ∨ s.srcLen.toNat ≠ bpp * s.w * s.h
    ∨ s.srcAddr.toNat + s.srcLen.toNat > 2 ^ s.params.aw ∨ s.dstAddr.toNat + 3 * s.w * s.h > 2 ^ s.params.aw

theorem needsEvenWidth_iff (i : Instr) : needsEvenWidth i = true ↔ i = .decYuv422 := by
  cases i <;> simp [needsEvenWidth]

theorem geometryFails_iff_misfits {i : Instr} {bpp : Nat} (hb : bytesPerPixel i = some bpp) (s : State) :
    geometryFails i s = true ↔ GeometryMisfits i bpp s := by
  rw [← Bool.not_eq_false, geometryFails_iff_not hb, needsEvenWidth_iff]
  simp only [GeometryHolds, GeometryMisfits, not_and_or, Classical.not_imp, Nat.not_lt, Nat.not_le, Nat.le_zero,
    Nat.mod_two_ne_zero]
  tauto

/-! ### The commands that reach the check -/

theorem bayerCommand_eq_rasterCommand {pat : Pattern} (hpat : (patternSearch pat).isSome = true) (i : Instr) (bps : Nat)
    (raw : Nat → Nat) (s : State) : ∃ out, bayerCommand i pat bps raw s = rasterCommand i out s := by
  obtain ⟨o, ho⟩ := Option.isSome_iff_exists.1 hpat
  exact ⟨_, by rw [bayerCommand, ho]⟩

/-- A command with source bytes per pixel whose pattern passes is a raster command (R120 steps 6 to 9). -/
theorem exec_eq_rasterCommand {i : Instr} {bpp : Nat} (hb : bytesPerPixel i = some bpp) (hp : patternOk i = true)
    (s : State) : ∃ out, exec i s = rasterCommand i out s := by
  cases i with
  | decYuv422 | decRgb24 | decBgr24 | decArgb32 | decXrgb32 => exact ⟨_, rfl⟩
  | decBayer8 pat | decBayer10 pat | decBayer12 pat => exact bayerCommand_eq_rasterCommand hp _ _ _ s
  | decMjpeg | decBayerBadBps bps pat | decUnrecognised tag | start ignored => cases hb

/-- OUT_LEN holds 3 × W × H unreduced, for the range fits the address space (R33, R123). -/
theorem State.completeRaster_outLen {s : State} (out : Nat → Nat → Channel → Byte) (hp : s.params.wf = true)
    (hd : s.dstAddr.toNat + s.rasterLength ≤ 2 ^ s.params.aw) :
    (s.completeRaster out).outLen.toNat = 3 * s.w * s.h := by
  rw [State.completeRaster, State.complete_outLen, BitVec.toNat_ofNat, Nat.mod_eq_of_lt (rasterLength_lt hp hd),
    State.rasterLength]

theorem exec_of_misfit {i : Instr} {bpp : Nat} (hb : bytesPerPixel i = some bpp) (hp : patternOk i = true) {s : State}
    (hg : geometryFails i s = true) : exec i s = .next (failedWith 4 s) := by
  obtain ⟨out, hexec⟩ := exec_eq_rasterCommand hb hp s
  rw [hexec, rasterCommand, if_pos hg, raise_eq_failedWith, errorWord]

theorem exec_of_fit {i : Instr} {bpp : Nat} (hb : bytesPerPixel i = some bpp) (hp : patternOk i = true) {s : State}
    (hg : geometryFails i s = false) : ∃ out, exec i s = .next (s.completeRaster out) := by
  obtain ⟨out, hexec⟩ := exec_eq_rasterCommand hb hp s
  exact ⟨out, by rw [hexec, rasterCommand, hg, if_neg Bool.false_ne_true]⟩

/-- The eight raster commands, a Bayer one with the pattern `pat`, and their source bytes per pixel (R123). -/
def rasterInstrs (pat : Pattern) : List (Instr × Nat) :=
  [(.decYuv422, 2), (.decRgb24, 3), (.decBgr24, 3), (.decArgb32, 4), (.decXrgb32, 4), (.decBayer8 pat, 1),
    (.decBayer10 pat, 2), (.decBayer12 pat, 2)]

theorem reaches_check_of_mem_rasterInstrs {pat : Pattern} (hpat : (patternSearch pat).isSome = true) :
    ∀ r ∈ rasterInstrs pat, bytesPerPixel r.1 = some r.2 ∧ patternOk r.1 = true := by
  simp [rasterInstrs, bytesPerPixel, patternOk, hpat]

/-! ### The commands that do not -/

/-- A Bayer command whose pattern fails raises MalformedMosaicPattern before the check (R206). -/
theorem bayerCommand_error_of_bad_pattern {i : Instr} {pat : Pattern} {bps : Nat} {raw : Nat → Nat} {s t : State}
    (hpat : (patternSearch pat).isSome = false) (h : bayerCommand i pat bps raw s = .next t) : t.error = 3 := by
  rw [bayerCommand, Option.isNone_iff_eq_none.1 (Option.isSome_eq_false_iff.1 hpat)] at h
  cases h
  rfl

theorem exec_error_ne_geometryMismatch {i : Instr} {s t : State} (hi : i.cmdReg = .format)
    (hno : bytesPerPixel i = none ∨ patternOk i = false) (h : exec i s = .next t) : t.error ≠ 4 := by
  cases i with
  | decYuv422 | decRgb24 | decBgr24 | decArgb32 | decXrgb32 => rcases hno with hno | hno <;> cases hno
  | decBayer8 pat | decBayer10 pat | decBayer12 pat =>
    rw [bayerCommand_error_of_bad_pattern (hno.resolve_left nofun) h]
    decide
  | decMjpeg => cases h; rw [State.complete_error]; decide
  | decBayerBadBps bps pat | decUnrecognised tag => cases h; rw [State.raise_error]; decide
  | start ignored => cases hi

/-! ### The statement -/

/-- Settles O33: a command that does not reach the check never raises its error, and one that does is decided by it. -/
theorem geometryMismatchExactly : Obligations.GeometryMismatchExactly := by
  refine ⟨fun i s t => exec_error_ne_geometryMismatch, fun pat s hpat r hr => ?_⟩
  obtain ⟨hb, hp⟩ := reaches_check_of_mem_rasterInstrs hpat r hr
  change (GeometryMisfits r.1 r.2 s → _) ∧ (¬GeometryMisfits r.1 r.2 s → _)
  rw [← geometryFails_iff_misfits hb, Bool.not_eq_true]
  refine ⟨exec_of_misfit hb hp, fun hg => ?_⟩
  obtain ⟨out, hexec⟩ := exec_of_fit hb hp hg
  obtain ⟨-, -, -, -, -, hdst⟩ := (geometryFails_eq_false_iff r.1 s).1 hg
  exact ⟨_, hexec, s.completeRaster_status out, rfl, fun hparams => State.completeRaster_outLen out hparams hdst⟩

end Sys2Proof.Machine
end

