-- ==== Sys2Proof/Proofs/ColourTransform.lean ====
section
/-! PROOF. The function Csc by itself (41_yuv422_csc.md R152 to R157). Two ideas: truncation toward zero is floor
division on the side of zero the sum lies on, and it is monotone, so that bounds of a sum are bounds of its quotient. -/

namespace Sys2Proof.Machine

/-! ### Truncation and wrapping, for every coefficient table -/

/-- T[c] on either side of zero (R154). -/
theorem cscTrunc_eq_ite (t : Config.CscTable) (c : Channel) (y u v : Byte) :
    cscTrunc t c y u v =
      if 0 ≤ cscSum t c y u v then cscSum t c y u v / t.scale else -(-cscSum t c y u v / t.scale) := by
  rw [cscTrunc]
  split
  case isTrue hpos => exact Int.tdiv_eq_ediv_of_nonneg hpos
  case isFalse hneg =>
    rw [← Int.tdiv_eq_ediv_of_nonneg (by omega), Int.neg_tdiv, Int.neg_neg]

/-- Csc[c] is the non-negative remainder of T[c] modulo 256 (R153). -/
theorem csc_toNat (t : Config.CscTable) (c : Channel) (y u v : Byte) :
    ((csc t c y u v).toNat : Int) = cscTrunc t c y u v % 256 := by
  rw [csc, BitVec.toNat_ofInt]
  omega

theorem cscTrunc_bounds {t : Config.CscTable} (ht : 0 < t.scale) {c : Channel} {y u v : Byte} {lo hi : Int}
    (h : lo ≤ cscSum t c y u v ∧ cscSum t c y u v ≤ hi) :
    lo.tdiv t.scale ≤ cscTrunc t c y u v ∧ cscTrunc t c y u v ≤ hi.tdiv t.scale :=
  have hscale : 0 < (t.scale : Int) := by omega
  h.imp (Int.tdiv_le_tdiv hscale) (Int.tdiv_le_tdiv hscale)

/-- A sum within one scale unit above the multiple of a byte gives that byte. -/
theorem csc_eq_of_cscSum {t : Config.CscTable} {c : Channel} {y u v k : Byte} {r : Int} (hr : 0 ≤ r)
    (hlt : r < t.scale) (hsum : cscSum t c y u v = r + t.scale * k.toNat) : csc t c y u v = k := by
  have htrunc : cscTrunc t c y u v = k.toNat := by
    have hpos : 0 ≤ r + (t.scale : Int) * k.toNat := by positivity
    rw [cscTrunc, hsum, Int.tdiv_eq_ediv_of_nonneg hpos, Int.add_mul_ediv_left _ _ (by omega),
      Int.ediv_eq_zero_of_lt hr hlt, Int.zero_add]
  rw [csc, htrunc, BitVec.ofInt_natCast, BitVec.ofNat_toNat, BitVec.setWidth_eq]

/-! ### The sums of the printed table (R152) -/

theorem cscTable_scale : cscTable.scale = 10000000 := rfl

theorem cscSum_cscTable_red (y u v : Byte) :
    cscSum cscTable .red y u v = 10000000 * y.toNat - 72 * u.toNat + 14020000 * v.toNat - 1794548000 := by
  simp only [cscSum, cscRow, cscTable]
  omega

theorem cscSum_cscTable_green (y u v : Byte) :
    cscSum cscTable .green y u v = 10000000 * y.toNat - 3441000 * u.toNat - 7141000 * v.toNat + 1354587000 := by
  simp only [cscSum, cscRow, cscTable]
  omega

theorem cscSum_cscTable_blue (y u v : Byte) :
    cscSum cscTable .blue y u v = 10000000 * y.toNat + 17720000 * u.toNat + 154 * v.toNat - 2268183000 := by
  simp only [cscSum, cscRow, cscTable]
  omega

/-- Settles O24: `csc_toNat` and `cscTrunc_eq_ite` for every table, and the printed table's three sums. -/
theorem cscTruncatesTowardZeroAndWraps : Obligations.CscTruncatesTowardZeroAndWraps := by
  refine ⟨fun t c y u v _ => ?_, cscTable_scale, fun y u v => ?_⟩
  · rw [csc_toNat, cscTrunc_eq_ite]
  · exact ⟨cscSum_cscTable_red y u v, cscSum_cscTable_green y u v, cscSum_cscTable_blue y u v⟩

/-! ### Ranges (R157) -/

/-- The extremes are reached at (0, 255, 0) and (255, 0, 255). -/
theorem cscSum_cscTable_red_bounds (y u v : Byte) :
    -1794566360 ≤ cscSum cscTable .red y u v ∧ cscSum cscTable .red y u v ≤ 4330552000 := by
  rw [cscSum_cscTable_red]
  omega

/-- The extremes are reached at (0, 255, 255) and (255, 0, 0). -/
theorem cscSum_cscTable_green_bounds (y u v : Byte) :
    -1343823000 ≤ cscSum cscTable .green y u v ∧ cscSum cscTable .green y u v ≤ 3904587000 := by
  rw [cscSum_cscTable_green]
  omega

/-- The extremes are reached at (0, 0, 0) and (255, 255, 255). -/
theorem cscSum_cscTable_blue_bounds (y u v : Byte) :
    -2268183000 ≤ cscSum cscTable .blue y u v ∧ cscSum cscTable .blue y u v ≤ 4800456270 := by
  rw [cscSum_cscTable_blue]
  omega

/-- Settles O25: the bounds of the sums, carried to the quotients by `cscTrunc_bounds`. -/
theorem cscStaysInItsRanges : Obligations.CscStaysInItsRanges := by
  intro y u v
  have hscale : 0 < cscTable.scale := by decide
  have hred := cscSum_cscTable_red_bounds y u v
  have hgreen := cscSum_cscTable_green_bounds y u v
  have hblue := cscSum_cscTable_blue_bounds y u v
  exact ⟨hred, hgreen, hblue, cscTrunc_bounds hscale hred, cscTrunc_bounds hscale hgreen, cscTrunc_bounds hscale hblue⟩

/-! ### Grey pixels (R155) -/

theorem neutralChroma_toNat : (128 : Byte).toNat = 128 := rfl

/-- The chroma terms leave 2784 of a scale unit over Y. -/
theorem csc_grey_red (y : Byte) : csc cscTable .red y 128 128 = y := by
  refine csc_eq_of_cscSum (r := 2784) (by decide) (by decide) ?_
  rw [cscSum_cscTable_red, cscTable_scale, neutralChroma_toNat]
  omega

/-- The chroma terms leave 91000 of a scale unit over Y. -/
theorem csc_grey_green (y : Byte) : csc cscTable .green y 128 128 = y := by
  refine csc_eq_of_cscSum (r := 91000) (by decide) (by decide) ?_
  rw [cscSum_cscTable_green, cscTable_scale, neutralChroma_toNat]
  omega

/-- The chroma terms fall 3288 short of Y, which truncation takes to the unit below, and to 0 at Y = 0. -/
theorem csc_grey_blue (y : Byte) : csc cscTable .blue y 128 128 = if y = 0 then 0 else y - 1 := by
  split
  case isTrue hy => subst hy; decide
  case isFalse hy =>
    have hpred : (y - 1).toNat + 1 = y.toNat := by bv_omega
    refine csc_eq_of_cscSum (r := 9996712) (by decide) (by decide) ?_
    rw [cscSum_cscTable_blue, cscTable_scale, neutralChroma_toNat, ← hpred]
    omega

/-- Settles O26, one channel at a time. -/
theorem greyPixelsStayGrey : Obligations.GreyPixelsStayGrey :=
  fun y => ⟨csc_grey_red y, csc_grey_green y, csc_grey_blue y⟩

end Sys2Proof.Machine
end

