-- ==== Sys2Proof/Proofs/Yuv422Frame.lean ====
section
/-! PROOF. DEC.YUV422 on a whole frame (41_yuv422_csc.md R155): it is `rasterCommand` on the colour transform of each
pixel, and it alone needs an even width (40_dispatch_geometry.md R124 (b)). -/

namespace Sys2Proof.Machine

open Sys2Proof.Safety

theorem exec_decYuv422 (s : State) : exec .decYuv422 s = rasterCommand .decYuv422 s.yuv422Sample s := rfl

/-- The geometry check of DEC.YUV422 fails unless the width is even too (R124). -/
theorem exec_decYuv422_misfit {s : State} (h : ¬(GeometryHolds 2 s ∧ s.w % 2 = 0)) :
    exec .decYuv422 s = .next (failedWith 4 s) := by
  rw [exec_decYuv422]
  exact rasterCommand_misfit rfl _ fun ⟨hg, heven⟩ => h ⟨hg, heven rfl⟩

/-- Settles O16: `rasterCommand_ready` stores `yuv422Sample`, whose bytes are those of the pixel's macropixel (R150). -/
theorem yuv422StoresTheTransform : Obligations.Yuv422StoresTheTransform := by
  refine ⟨by decide, fun s => ⟨fun hready heven => ?_, exec_decYuv422_misfit⟩⟩
  rw [exec_decYuv422]
  exact rasterCommand_ready rfl s.yuv422Sample hready fun _ => heven

end Sys2Proof.Machine
end

