-- ==== Sys2Proof/Proofs/PackedRgbFrames.lean ====
section
/-! PROOF. The packed RGB commands on a whole frame (42_packed_rgb.md R170 to R175). Each is `rasterCommand` on a
permutation of the bytes of a pixel, and none needs an even width (40_dispatch_geometry.md R124 (b)). -/

namespace Sys2Proof.Machine

open Sys2Proof.Safety

/-! ### The raster by its byte offsets -/

/-- The channel of an index has that index (R13). -/
theorem index_channelOf {k : Nat} (hk : k < 3) : (channelOf k).index = k := by
  interval_cases k <;> rfl

/-- A destination offset is a pixel and a channel (R129). -/
theorem exists_pixel_channel {w h j : Nat} (hj : j < 3 * w * h) :
    ∃ p, p < w * h ∧ ∃ c : Channel, 3 * p + c.index = j := by
  rw [Nat.mul_assoc] at hj
  refine ⟨j / 3, by omega, channelOf (j % 3), ?_⟩
  rw [index_channelOf (Nat.mod_lt j (by decide))]
  exact Nat.div_add_mod j 3

/-! ### The samples -/

/-- R172 with ARGB_DROP = 0: element 0 of the reversed group is the last stored byte. -/
theorem packed32Sample_element0 {s : State} (hdrop : s.params.argbDrop = .element0) (y x : Nat) (c : Channel) :
    s.packed32Sample y x c = s.src (4 * (y * s.w + x) + (2 - c.index)) := by
  rw [State.packed32Sample, hdrop]
  cases c <;> rfl

/-- R172 with ARGB_DROP = 3: element 3 of the reversed group is the first stored byte. -/
theorem packed32Sample_element3 {s : State} (hdrop : s.params.argbDrop = .element3) (y x : Nat) (c : Channel) :
    s.packed32Sample y x c = s.src (4 * (y * s.w + x) + (3 - c.index)) := by
  rw [State.packed32Sample, hdrop]
  cases c <;> rfl

/-! ### The commands -/

theorem exec_decRgb24 (s : State) : exec .decRgb24 s = rasterCommand .decRgb24 s.rgb24Sample s := rfl

theorem exec_decBgr24 (s : State) : exec .decBgr24 s = rasterCommand .decBgr24 s.bgr24Sample s := rfl

/-- R173: both 32-bit commands are one raster command of four source bytes per pixel and any width. -/
theorem exec_packed32 {i : Instr} (hi : i = .decArgb32 ∨ i = .decXrgb32) (s : State) :
    exec i s = rasterCommand i s.packed32Sample s ∧ bytesPerPixel i = some 4 ∧ needsEvenWidth i = false := by
  rcases hi with rfl | rfl
  · exact ⟨rfl, rfl, rfl⟩
  · exact ⟨rfl, rfl, rfl⟩

/-- A geometry that does not hold is enough to fail, whatever the rule on the width (R124). -/
theorem rasterCommand_of_not_geometryHolds {i : Instr} {bpp : Nat} (hb : bytesPerPixel i = some bpp)
    (out : Nat → Nat → Channel → Byte) {s : State} (h : ¬GeometryHolds bpp s) :
    rasterCommand i out s = .next (failedWith 4 s) :=
  rasterCommand_misfit hb out fun ⟨hg, _⟩ => h hg

/-- A ready RGB-24 frame by its pixels: channel c is the stored byte 2 − c (R170). -/
theorem exec_decRgb24_ready {s : State} (hready : Ready 3 s) :
    ∃ t, exec .decRgb24 s = .next t ∧ RasterCompleted s t
      ∧ ∀ p, p < s.w * s.h →
          dst s t (3 * p) = s.src (3 * p + 2) ∧ dst s t (3 * p + 1) = s.src (3 * p + 1)
            ∧ dst s t (3 * p + 2) = s.src (3 * p) := by
  obtain ⟨t, hexec, hdone, hpixel⟩ := rasterCommand_ready_pixel (i := .decRgb24) rfl s.rgb24Sample hready nofun
  refine ⟨t, hexec, hdone, fun p hp => ?_⟩
  obtain ⟨y, x, -, -, rfl, hred, hgreen, hblue⟩ := hpixel p hp
  exact ⟨hred, hgreen, hblue⟩

/-- A ready BGR-24 frame by its bytes: channel c is the stored byte c, so each byte keeps its offset (R171). -/
theorem exec_decBgr24_ready {s : State} (hready : Ready 3 s) :
    ∃ t, exec .decBgr24 s = .next t ∧ RasterCompleted s t ∧ ∀ j, j < 3 * s.w * s.h → dst s t j = s.src j := by
  obtain ⟨t, hexec, hdone, hsample⟩ := rasterCommand_ready (i := .decBgr24) rfl s.bgr24Sample hready nofun
  refine ⟨t, hexec, hdone, fun j hj => ?_⟩
  obtain ⟨p, hp, c, rfl⟩ := exists_pixel_channel hj
  obtain ⟨y, x, hy, hx, rfl⟩ := exists_row_col hp
  exact hsample y x hy hx c

/-! ### The statements -/

/-- Settles O17, by the pixels of a ready frame. -/
theorem rgb24SwapsTheOuterBytes : Obligations.Rgb24SwapsTheOuterBytes :=
  ⟨by decide, fun s => ⟨exec_decRgb24_ready, rasterCommand_of_not_geometryHolds rfl s.rgb24Sample⟩⟩

/-- Settles O18, by the bytes of a ready frame. -/
theorem bgr24CopiesTheSource : Obligations.Bgr24CopiesTheSource :=
  ⟨by decide, fun s => ⟨exec_decBgr24_ready, rasterCommand_of_not_geometryHolds rfl s.bgr24Sample⟩⟩

/-- Settles O19: both commands store `packed32Sample`, whose value is that of the element dropped (R172, R173). -/
theorem packed32ReversesAndDrops : Obligations.Packed32ReversesAndDrops := by
  refine ⟨by decide, by decide, fun i hi s => ?_⟩
  obtain ⟨hexec, hbpp, hwidth⟩ := exec_packed32 hi s
  rw [hexec]
  refine ⟨fun hready => ?_, rasterCommand_of_not_geometryHolds hbpp s.packed32Sample⟩
  obtain ⟨t, hnext, hdone, hpixel⟩ := rasterCommand_ready_pixel hbpp s.packed32Sample hready (by simp [hwidth])
  refine ⟨t, hnext, hdone, fun p hp => ?_⟩
  obtain ⟨y, x, -, -, rfl, hred, hgreen, hblue⟩ := hpixel p hp
  rw [hred, hgreen, hblue]
  constructor
  · intro hdrop
    simp only [packed32Sample_element0 hdrop]
    exact ⟨rfl, rfl, rfl⟩
  · intro hdrop
    simp only [packed32Sample_element3 hdrop]
    exact ⟨rfl, rfl, rfl⟩

/-- Settles O23: at each channel of a pixel the swap of R170 undoes the swap between the two sources, and R171 copies
the other source. -/
theorem rgb24AndBgr24Agree : Obligations.Rgb24AndBgr24Agree := by
  intro s1 s2 hready1 hready2 hw hh hswap
  obtain ⟨t1, hexec1, -, hrgb⟩ := exec_decRgb24_ready hready1
  obtain ⟨t2, hexec2, -, hbgr⟩ := exec_decBgr24_ready hready2
  refine ⟨t1, t2, hexec1, hexec2, fun j hj => ?_⟩
  rw [hbgr j (by rwa [← hw, ← hh])]
  obtain ⟨p, hp, c, rfl⟩ := exists_pixel_channel hj
  obtain ⟨hrgb0, hrgb1, hrgb2⟩ := hrgb p hp
  obtain ⟨hswap0, hswap1, hswap2⟩ := hswap p hp
  cases c with
  | red => exact hrgb0.trans hswap2
  | green => exact hrgb1.trans hswap1
  | blue => exact hrgb2.trans hswap0

end Sys2Proof.Machine
end

