-- ==== Sys2Proof/Proofs/CompressedPassThrough.lean ====
section
/-! PROOF. DEC.MJPEG is one completion with KIND = COMPRESSED, whose result buffer is the source buffer, and nothing
decides it (43_compressed.md R190). -/

namespace Sys2Proof.Machine

/-- No branch stands before the completion: no check is made and memory is not looked at (R190). -/
theorem exec_decMjpeg (s : State) : exec .decMjpeg s = .next (s.complete .compressed s.srcAddr s.srcLen) := rfl

/-- Settles O13: the completion of `exec_decMjpeg`, with its STATUS word by `statusDone_compressed`. -/
theorem mjpegPassesThrough : Obligations.MjpegPassesThrough := by
  refine ⟨by decide, fun s => ?_⟩
  rw [exec_decMjpeg, State.complete, statusDone_compressed]
  rfl

end Sys2Proof.Machine
end

