-- ==== Sys2Proof/Proofs/BayerSamples.lean ====
section
/-! PROOF. One output sample of a Bayer command as a number: the mean of the left-justified samples of the window,
divided by 256 (44_bayer_unpack.md R201, R204, R205; 45_demosaic.md R226). The one idea: a mean of 16-bit samples fits 16 bits,
so that the quotients are those of exact numbers. -/

namespace Sys2Proof.Machine

open Sys2Proof.Safety

/-! ### The stages of the path -/

/-- The sample plane holds the left-justified raw samples (R201). -/
theorem samplePlane_toNat (bps w : Nat) (raw : Nat → Nat) (y x : Nat) :
    (samplePlane bps w raw y x).toNat = justified bps raw (y * w + x) := by
  rw [samplePlane, BitVec.toNat_ofNat, Nat.shiftLeft_eq, justified]

/-- R225: the exact window sum is at most 65535 for each sample counted. -/
theorem windowSum_le (plane : Nat → Nat → Sample) (h w : Nat) (o : BayerOffsets) (c : Channel) (y x : Nat) :
    windowSum plane h w o c y x ≤ windowCount h w o c y x * 65535 := by
  have hsample : ∀ v ∈ (neighbours h w o c y x).map fun q => (plane q.1 q.2).toNat, v ≤ 65535 := by
    intro v hv
    obtain ⟨q, -, rfl⟩ := List.mem_map.1 hv
    exact Nat.le_of_lt_succ (plane q.1 q.2).isLt
  simpa only [windowSum_eq, windowCount_eq, List.length_map, smul_eq_mul] using List.sum_le_card_nsmul _ _ hsample

/-- R226, with the value 0 of an empty window as Lean's quotient by 0: no mean is reduced to 16 bits. -/
theorem demosaic_toNat (plane : Nat → Nat → Sample) (h w : Nat) (o : BayerOffsets) (y x : Nat) (c : Channel) :
    (demosaic plane h w o y x c).toNat = windowSum plane h w o c y x / windowCount h w o c y x := by
  rw [demosaic]
  split
  next hcount => rw [hcount, Nat.div_zero]; rfl
  next =>
    have hmean : windowSum plane h w o c y x / windowCount h w o c y x ≤ 65535 :=
      Nat.div_le_of_le_mul (windowSum_le plane h w o c y x)
    rw [BitVec.toNat_ofNat, Nat.mod_eq_of_lt (Nat.lt_succ_of_le hmean)]

/-- The narrowed sample is the quotient by 256, which fits a byte (R204). -/
theorem narrow_toNat (d : Sample) : (narrow d).toNat = d.toNat / 256 := by
  have hd := d.isLt
  rw [narrow, BitVec.toNat_ofNat, Nat.shiftRight_eq_div_pow, Nat.mod_eq_of_lt (by omega)]

/-- Unpacking, demosaicking and narrowing together (R201, R226, R204). -/
theorem narrow_demosaic_toNat (bps : Nat) (raw : Nat → Nat) (h w : Nat) (o : BayerOffsets) (y x : Nat) (c : Channel) :
    (narrow (demosaic (samplePlane bps w raw) h w o y x c)).toNat =
      ((neighbours h w o c y x).map fun q => justified bps raw (q.1 * w + q.2)).sum
        / (neighbours h w o c y x).length / 256 := by
  rw [narrow_toNat, demosaic_toNat, windowSum_eq, windowCount_eq]
  simp only [samplePlane_toNat]

/-! ### The net law -/

/-- A raw sample below 2^BPS loses no bit when it is left-justified (R201). -/
theorem justified_of_lt {bps : Nat} (hbps : bps ≤ 16) {raw : Nat → Nat} {q : Nat} (hq : raw q < 2 ^ bps) :
    justified bps raw q = raw q * 2 ^ (16 - bps) := by
  refine Nat.mod_eq_of_lt ?_
  calc raw q * 2 ^ (16 - bps) < 2 ^ bps * 2 ^ (16 - bps) := Nat.mul_lt_mul_of_pos_right hq (Nat.two_pow_pos _)
    _ = 65536 := by rw [← Nat.pow_add, Nat.add_sub_of_le hbps]

/-- The shift of R201 and the narrowing of R204 cancel but for BPS − 8 bits. -/
theorem scaled_div_div {bps : Nat} (hlo : 8 ≤ bps) (hhi : bps ≤ 16) (total n : Nat) :
    total * 2 ^ (16 - bps) / n / 256 = total / (n * 2 ^ (bps - 8)) := by
  have hscale : 256 = 2 ^ (bps - 8) * 2 ^ (16 - bps) := by
    rw [← Nat.pow_add, show bps - 8 + (16 - bps) = 8 by omega]
  rw [Nat.div_div_eq_div_mul, hscale, ← Nat.mul_assoc, Nat.mul_div_mul_right _ _ (Nat.two_pow_pos _)]

/-- R205 for every depth from 8 to 16. -/
theorem narrow_demosaic_of_lt {bps : Nat} (hlo : 8 ≤ bps) (hhi : bps ≤ 16) {raw : Nat → Nat} {h w : Nat}
    {o : BayerOffsets} {y x : Nat} {c : Channel}
    (hraw : ∀ q ∈ neighbours h w o c y x, raw (q.1 * w + q.2) < 2 ^ bps) :
    (narrow (demosaic (samplePlane bps w raw) h w o y x c)).toNat =
      ((neighbours h w o c y x).map fun q => raw (q.1 * w + q.2)).sum
        / ((neighbours h w o c y x).length * 2 ^ (bps - 8)) := by
  rw [narrow_demosaic_toNat, List.map_congr_left fun q hq => justified_of_lt hhi (hraw q hq), List.sum_map_mul_right,
    scaled_div_div hlo hhi]

/-- Settles O32, by `narrow_demosaic_of_lt`; a window without samples has the empty sum. -/
theorem bayerNetLaw : Obligations.BayerNetLaw := by
  intro bps raw h w o y x c hbps hraw
  have hlaw := narrow_demosaic_of_lt (by omega) (by omega) hraw
  refine ⟨fun _ => hlaw, fun hempty => BitVec.eq_of_toNat_eq ?_⟩
  rw [hlaw, hempty, Nat.zero_mul, Nat.div_zero]
  rfl

end Sys2Proof.Machine
end

