-- ==== Sys2Proof/Proofs/BayerFrames.lean ====
section
/-! PROOF. The Bayer commands on a whole frame (44_bayer_unpack.md R206 to R209). The three depths are one
`bayerCommand`, which differs only in the depth, the raw samples and the source bytes per pixel. -/

namespace Sys2Proof.Machine

open Sys2Proof.Safety

/-! ### bayerCommand -/

/-- The failed search ends the command before its geometry is looked at (R206). -/
theorem bayerCommand_of_bad_pattern {pat : Pattern} (hpat : patternSearch pat = none) (i : Instr) (bps : Nat)
    (raw : Nat → Nat) (s : State) : bayerCommand i pat bps raw s = .next (failedWith 3 s) := by
  rw [bayerCommand, hpat, raise_eq_failedWith, errorWord]

/-- Past the search it is a raster command on the Bayer samples (R120 steps 6 to 9). -/
theorem bayerCommand_of_pattern {pat : Pattern} {o : BayerOffsets} (hpat : patternSearch pat = some o) (i : Instr)
    (bps : Nat) (raw : Nat → Nat) (s : State) :
    bayerCommand i pat bps raw s = rasterCommand i (s.bayerSample bps raw o) s := by
  rw [bayerCommand, hpat]

/-- A ready frame: the raster stored is that of `narrow_demosaic_toNat`. -/
theorem bayerCommand_ready {i : Instr} {bpp : Nat} (hb : bytesPerPixel i = some bpp) (hwidth : needsEvenWidth i = false)
    {pat : Pattern} {o : BayerOffsets} (hpat : patternSearch pat = some o) (bps : Nat) (raw : Nat → Nat) {s : State}
    (hready : Ready bpp s) :
    ∃ t, bayerCommand i pat bps raw s = .next t ∧ RasterCompleted s t ∧ BayerStored bps raw o s t := by
  obtain ⟨t, hnext, hdone, hsample⟩ := rasterCommand_ready hb (s.bayerSample bps raw o) hready (by simp [hwidth])
  refine ⟨t, by rw [bayerCommand_of_pattern hpat, hnext], hdone, fun y x hy hx c => ?_⟩
  rw [hsample y x hy hx c, State.bayerSample, narrow_demosaic_toNat]

/-- The order of outcomes of a Bayer command: the pattern, then the geometry, then the raster (R206). -/
theorem bayerCommand_outcome {i : Instr} {bpp : Nat} (hb : bytesPerPixel i = some bpp)
    (hwidth : needsEvenWidth i = false) (pat : Pattern) (bps : Nat) (raw : Nat → Nat) (s : State) :
    (patternSearch pat = none → bayerCommand i pat bps raw s = .next (failedWith 3 s))
      ∧ ∀ o, patternSearch pat = some o →
        (Ready bpp s → ∃ t, bayerCommand i pat bps raw s = .next t ∧ RasterCompleted s t ∧ BayerStored bps raw o s t)
        ∧ (¬GeometryHolds bpp s → bayerCommand i pat bps raw s = .next (failedWith 4 s)) := by
  refine ⟨fun hpat => bayerCommand_of_bad_pattern hpat i bps raw s, fun o hpat => ⟨?_, fun hmisfit => ?_⟩⟩
  · exact bayerCommand_ready hb hwidth hpat bps raw
  · rw [bayerCommand_of_pattern hpat]
    exact rasterCommand_of_not_geometryHolds hb _ hmisfit

/-! ### The commands -/

/-- DEC.BAYER8: the byte at offset q is the raw sample q (R200). -/
theorem exec_decBayer8 (pat : Pattern) (s : State) :
    exec (.decBayer8 pat) s = bayerCommand (.decBayer8 pat) pat 8 (fun q => (s.src q).toNat) s := rfl

/-- DEC.BAYER10: a raw sample is a 16-bit little-endian word (R200). -/
theorem exec_decBayer10 (pat : Pattern) (s : State) :
    exec (.decBayer10 pat) s = bayerCommand (.decBayer10 pat) pat 10
      (fun q => (s.src (2 * q)).toNat + 256 * (s.src (2 * q + 1)).toNat) s := rfl

/-- DEC.BAYER12: the words of DEC.BAYER10 at another depth (R200). -/
theorem exec_decBayer12 (pat : Pattern) (s : State) :
    exec (.decBayer12 pat) s = bayerCommand (.decBayer12 pat) pat 12
      (fun q => (s.src (2 * q)).toNat + 256 * (s.src (2 * q + 1)).toNat) s := rfl

/-- DEC.BAYER.BADBPS raises UnsupportedBitDepth from every state (R209). -/
theorem exec_decBayerBadBps (bps : BitVec 8) (pat : Pattern) (s : State) :
    exec (.decBayerBadBps bps pat) s = .next (failedWith 2 s) := by
  rw [exec, execDecBayerBadBps, raise_eq_failedWith, errorWord]

/-! ### The statements -/

/-- Settles O20: `bayerCommand_outcome` at depth 8, one source byte per pixel. -/
theorem bayer8StoresTheMeans : Obligations.Bayer8StoresTheMeans := by
  refine ⟨fun pat => decodeFormat_bayerTag 8 pat, fun pat s => ?_⟩
  rw [exec_decBayer8]
  exact bayerCommand_outcome rfl rfl pat 8 _ s

/-- Settles O21: `bayerCommand_outcome` at depth 10, two source bytes per pixel. -/
theorem bayer10StoresTheMeans : Obligations.Bayer10StoresTheMeans := by
  refine ⟨fun pat => decodeFormat_bayerTag 10 pat, fun pat s => ?_⟩
  rw [exec_decBayer10]
  exact bayerCommand_outcome rfl rfl pat 10 _ s

/-- Settles O22: `bayerCommand_outcome` at depth 12, two source bytes per pixel. -/
theorem bayer12StoresTheMeans : Obligations.Bayer12StoresTheMeans := by
  refine ⟨fun pat => decodeFormat_bayerTag 12 pat, fun pat s => ?_⟩
  rw [exec_decBayer12]
  exact bayerCommand_outcome rfl rfl pat 12 _ s

/-- Settles O15: by `decodeFormat_bayerTag` a depth that is none of the three legal ones falls through to the BADBPS
row, and `exec_decBayerBadBps` says what that command does. -/
theorem badDepthAlwaysFails : Obligations.BadDepthAlwaysFails := by
  refine ⟨fun bps pat h8 h10 h12 => ?_, exec_decBayerBadBps⟩
  rw [decodeFormat_bayerTag, if_neg h8, if_neg h10, if_neg h12]

end Sys2Proof.Machine
end

