-- ==== Sys2Proof/Proofs/DemosaicMean.lean ====
section
/-! PROOF. What R226's quotient says of one output sample (45_demosaic.md R226, R228, R232): the floor of a mean lies
between the bounds of its samples, and a flat field is the case in which the two bounds are one. -/

namespace Sys2Proof.Machine

open Sys2Proof.Safety

/-- Settles O27: the quotient of the window sum and count, both taken over `neighbours`. -/
theorem demosaicIsTheFloorOfTheMean : Obligations.DemosaicIsTheFloorOfTheMean := by
  intro plane h w o y x c
  rw [← windowCount_eq, ← windowSum_eq]
  exact ⟨fun _ => demosaic_toNat plane h w o y x c, fun hempty => if_pos hempty⟩

/-- Samples of at least `lo` sum to at least `lo` for each counted one. -/
theorem mul_windowCount_le_windowSum {plane : Nat → Nat → Sample} {h w : Nat} {o : BayerOffsets} {c : Channel}
    {y x lo : Nat} (hlo : ∀ q ∈ neighbours h w o c y x, lo ≤ (plane q.1 q.2).toNat) :
    lo * windowCount h w o c y x ≤ windowSum plane h w o c y x := by
  rw [windowCount_eq, windowSum_eq, Nat.mul_comm, ← List.length_map fun q : Nat × Nat => (plane q.1 q.2).toNat]
  exact List.card_nsmul_le_sum _ _ (List.forall_mem_map.2 hlo)

/-- Samples of at most `hi` sum to at most `hi` for each counted one. -/
theorem windowSum_le_windowCount_mul {plane : Nat → Nat → Sample} {h w : Nat} {o : BayerOffsets} {c : Channel}
    {y x hi : Nat} (hhi : ∀ q ∈ neighbours h w o c y x, (plane q.1 q.2).toNat ≤ hi) :
    windowSum plane h w o c y x ≤ windowCount h w o c y x * hi := by
  rw [windowCount_eq, windowSum_eq, ← List.length_map fun q : Nat × Nat => (plane q.1 q.2).toNat]
  exact List.sum_le_card_nsmul _ _ (List.forall_mem_map.2 hhi)

/-- Settles O28: the bounds of the window sum, divided by the count. -/
theorem demosaicStaysWithinItsSamples : Obligations.DemosaicStaysWithinItsSamples := by
  intro plane h w o y x c lo hi hcount hbounds
  rw [demosaic_toNat]
  constructor
  · exact (Nat.le_div_iff_mul_le (Nat.pos_of_ne_zero hcount)).2
      (mul_windowCount_le_windowSum fun q hq => (hbounds q hq).1)
  · exact Nat.div_le_of_le_mul (windowSum_le_windowCount_mul fun q hq => (hbounds q hq).2)

/-- Settles O31: in a flat field v is both the lower and the upper bound of O28. -/
theorem flatFieldsAreReproduced : Obligations.FlatFieldsAreReproduced := by
  intro plane h w o c v hflat y x hcount
  have hsample : ∀ q ∈ neighbours h w o c y x, v.toNat ≤ (plane q.1 q.2).toNat ∧ (plane q.1 q.2).toNat ≤ v.toNat := by
    intro q hq
    obtain ⟨hy, hx, -, -, hpop⟩ := mem_neighbours.1 hq
    rw [hflat q.1 q.2 hy hx hpop]
    exact ⟨Nat.le_refl _, Nat.le_refl _⟩
  obtain ⟨hlo, hhi⟩ := demosaicStaysWithinItsSamples plane h w o y x c _ _ hcount hsample
  exact BitVec.eq_of_toNat_eq (Nat.le_antisymm hhi hlo)

end Sys2Proof.Machine
end

