-- ==== Sys2Proof/Proofs/MaskCount.lean ====
section
/-! PROOF. How many samples a window holds (45_demosaic.md R225, R227, R229, R234). The one idea: a position is at an
offset when its row and its column each have the offset's phase, so that the count over the window is a product of two
counts along a line. Each of these is 1 or 2 in a frame of at least two rows and columns, and the two phases together
have at most 3. -/

namespace Sys2Proof.Machine

open Sys2Proof.Safety

/-! ### Counting along one line -/

/-- 1 where a coordinate has the phase and 0 elsewhere. -/
def phaseMark (phase q : Nat) : Nat := if q % 2 = phase then 1 else 0

theorem length_eq_sum_ones {α : Type} (l : List α) : l.length = (l.map fun _ => 1).sum := by
  rw [List.map_const', List.sum_replicate, smul_eq_mul, Nat.mul_one]

/-- The count is the sum of the phase's marks over the window's coordinates below `size` (R229). -/
theorem phaseCount_eq_sumNear (size phase p : Nat) : phaseCount size phase p = sumNear size p (phaseMark phase) := by
  rw [phaseCount, length_eq_sum_ones, sum_filter_map, ← sum_range_near]
  congr 1
  refine List.map_congr_left fun q _ => ?_
  simp only [near, phaseMark, Bool.and_eq_true, beq_iff_eq, ite_and]

theorem sumNear_add (n p : Nat) (F G : Nat → Nat) :
    sumNear n p (fun q => F q + G q) = sumNear n p F + sumNear n p G := by
  simp only [sumNear]
  split_ifs <;> omega

theorem sumNear_mul_left (n p a : Nat) (F : Nat → Nat) : sumNear n p (fun q => a * F q) = a * sumNear n p F := by
  simp only [sumNear, Nat.mul_add, mul_ite, Nat.mul_zero]

theorem sumNear_mul_right (n p a : Nat) (F : Nat → Nat) : sumNear n p (fun q => F q * a) = sumNear n p F * a := by
  simp only [sumNear, Nat.add_mul, ite_mul, Nat.zero_mul]

/-- Two adjacent coordinates of a line, one of each phase, lie in every window; three coordinates have a phase at most
twice. -/
theorem phaseCount_bounds {size p : Nat} (hsize : 2 ≤ size) (hp : p < size) (phase : Fin 2) :
    1 ≤ phaseCount size phase p ∧ phaseCount size phase p ≤ 2 := by
  simp only [phaseCount_eq_sumNear, sumNear, phaseMark]
  split_ifs <;> omega

/-- The two phases share the three coordinates of a window. -/
theorem phaseCount_add_le {a b : Fin 2} (hab : a ≠ b) (size p : Nat) :
    phaseCount size a p + phaseCount size b p ≤ 3 := by
  have hne : a.val ≠ b.val := Fin.val_ne_of_ne hab
  simp only [phaseCount_eq_sumNear, sumNear, phaseMark]
  split_ifs <;> omega

/-! ### Counting one offset -/

/-- Position (y, x) is at the offset in its 2×2 cell (R221). -/
def atOffset (f : CellOffset) (y x : Nat) : Bool := x % 2 == f.col.val && y % 2 == f.row.val

theorem populated_red (o : BayerOffsets) : populated o .red = atOffset o.red := by
  funext y x
  simp [populated, populatedOffsets, atOffset]

theorem populated_blue (o : BayerOffsets) : populated o .blue = atOffset o.blue := by
  funext y x
  simp [populated, populatedOffsets, atOffset]

theorem populated_green (o : BayerOffsets) (y x : Nat) :
    populated o .green y x = (atOffset o.green0 y x || atOffset o.green1 y x) := by
  simp [populated, populatedOffsets, atOffset]

theorem cellOffset_eq_of_phases {f g : CellOffset} (hrow : f.row = g.row) (hcol : f.col = g.col) : f = g := by
  cases f
  cases g
  rw [CellOffset.mk.injEq]
  exact ⟨hcol, hrow⟩

/-- A position is at one offset only. -/
theorem eq_of_atOffset {f g : CellOffset} {y x : Nat} (hf : atOffset f y x = true) (hg : atOffset g y x = true) :
    f = g := by
  simp only [atOffset, Bool.and_eq_true, beq_iff_eq] at hf hg
  obtain ⟨hfcol, hfrow⟩ := hf
  obtain ⟨hgcol, hgrow⟩ := hg
  exact cellOffset_eq_of_phases (Fin.ext (hfrow.symm.trans hgrow)) (Fin.ext (hfcol.symm.trans hgcol))

/-- N as a sum over the rows and columns of the window. -/
theorem windowCount_eq_sumNear (h w : Nat) (o : BayerOffsets) (c : Channel) (y x : Nat) :
    windowCount h w o c y x = sumNear h y fun yy => sumNear w x fun xx => (populated o c yy xx).toNat := by
  rw [windowCount_eq, length_eq_sum_ones, sum_neighbours]
  simp only [Bool.toNat, Bool.cond_eq_ite]

/-- The positions of one offset in a window are its rows times its columns (R229). -/
theorem sumNear_atOffset (h w : Nat) (f : CellOffset) (y x : Nat) :
    (sumNear h y fun yy => sumNear w x fun xx => (atOffset f yy xx).toNat) =
      phaseCount h f.row y * phaseCount w f.col x := by
  have hprod : ∀ yy xx, (atOffset f yy xx).toNat = phaseMark f.row yy * phaseMark f.col xx := by
    intro yy xx
    by_cases hrow : yy % 2 = f.row.val <;> simp [atOffset, phaseMark, hrow, Bool.toNat, Bool.cond_eq_ite]
  simp only [hprod, sumNear_mul_left, sumNear_mul_right, phaseCount_eq_sumNear]

/-- A channel populated at one offset only (R229); for green this is the doubled offset of R234. -/
theorem windowCount_of_populated_eq {o : BayerOffsets} {c : Channel} {f : CellOffset}
    (hpop : populated o c = atOffset f) (h w y x : Nat) :
    windowCount h w o c y x = phaseCount h f.row y * phaseCount w f.col x := by
  rw [windowCount_eq_sumNear, hpop, sumNear_atOffset]

/-- Two different green offsets: no position is at both, so that their counts add (R229). -/
theorem windowCount_green {o : BayerOffsets} (hne : o.green0 ≠ o.green1) (h w y x : Nat) :
    windowCount h w o .green y x =
      phaseCount h o.green0.row y * phaseCount w o.green0.col x
        + phaseCount h o.green1.row y * phaseCount w o.green1.col x := by
  have hadd : ∀ yy xx, (populated o .green yy xx).toNat =
      (atOffset o.green0 yy xx).toNat + (atOffset o.green1 yy xx).toNat := by
    intro yy xx
    rw [populated_green]
    cases h0 : atOffset o.green0 yy xx with
    | false => simp
    | true =>
      cases h1 : atOffset o.green1 yy xx with
      | false => rfl
      | true => exact absurd (eq_of_atOffset h0 h1) hne
  simp only [windowCount_eq_sumNear, hadd, sumNear_add, sumNear_atOffset]

/-- Settles O29: one populated offset for red, blue and a doubled green, two for a green of two offsets. -/
theorem maskCountClosedForm : Obligations.MaskCountClosedForm := by
  intro h w o y x
  refine ⟨windowCount_of_populated_eq (populated_red o) h w y x, windowCount_of_populated_eq (populated_blue o) h w y x,
    fun hne => windowCount_green hne h w y x, fun hsame => windowCount_of_populated_eq ?_ h w y x⟩
  funext yy xx
  rw [populated_green, ← hsame, Bool.or_self]

/-! ### A frame of at least two rows and columns -/

/-- An accepted pattern has two different green offsets: their indices differ (R203). -/
theorem green0_ne_green1_of_patternSearch {pat : Pattern} {o : BayerOffsets} (ho : patternSearch pat = some o) :
    o.green0 ≠ o.green1 := by
  obtain ⟨-, -, -, -, hlt⟩ := (patternSearchFindsTheChannels pat).2 o ho
  intro hsame
  rw [hsame] at hlt
  exact Nat.lt_irrefl _ hlt

/-- One offset has 1 to 4 samples in a window. -/
theorem offset_count_bounds {h w y x : Nat} (hh : 2 ≤ h) (hw : 2 ≤ w) (hy : y < h) (hx : x < w) (f : CellOffset) :
    1 ≤ phaseCount h f.row y * phaseCount w f.col x ∧ phaseCount h f.row y * phaseCount w f.col x ≤ 4 := by
  obtain ⟨hrow, hrow'⟩ := phaseCount_bounds hh hy f.row
  obtain ⟨hcol, hcol'⟩ := phaseCount_bounds hw hx f.col
  exact ⟨Nat.mul_le_mul hrow hcol, Nat.mul_le_mul hrow' hcol'⟩

/-- Two different offsets differ in their row or in their column phase, and along that line they have at most 3 of the
window's coordinates. -/
theorem two_offsets_count_le {h w y x : Nat} (hh : 2 ≤ h) (hw : 2 ≤ w) (hy : y < h) (hx : x < w) {f g : CellOffset}
    (hne : f ≠ g) :
    phaseCount h f.row y * phaseCount w f.col x + phaseCount h g.row y * phaseCount w g.col x ≤ 6 := by
  obtain ⟨-, hfrow⟩ := phaseCount_bounds hh hy f.row
  obtain ⟨-, hgrow⟩ := phaseCount_bounds hh hy g.row
  obtain ⟨-, hfcol⟩ := phaseCount_bounds hw hx f.col
  obtain ⟨-, hgcol⟩ := phaseCount_bounds hw hx g.col
  by_cases hrow : f.row = g.row
  · have hcol : f.col ≠ g.col := fun hcol => hne (cellOffset_eq_of_phases hrow hcol)
    have hcols := phaseCount_add_le hcol w x
    have hf := Nat.mul_le_mul_right (phaseCount w f.col x) hfrow
    have hg := Nat.mul_le_mul_right (phaseCount w g.col x) hgrow
    omega
  · have hrows := phaseCount_add_le hrow h y
    have hf := Nat.mul_le_mul_left (phaseCount h f.row y) hfcol
    have hg := Nat.mul_le_mul_left (phaseCount h g.row y) hgcol
    omega

/-- R227 and the largest N of R229. -/
theorem windowCount_bounds {pat : Pattern} {o : BayerOffsets} (ho : patternSearch pat = some o) {h w y x : Nat}
    (hh : 2 ≤ h) (hw : 2 ≤ w) (hy : y < h) (hx : x < w) (c : Channel) :
    1 ≤ windowCount h w o c y x ∧ windowCount h w o c y x ≤ 6 := by
  have hone := offset_count_bounds hh hw hy hx
  cases c with
  | red =>
    rw [windowCount_of_populated_eq (populated_red o)]
    exact ⟨(hone o.red).1, (hone o.red).2.trans (by decide)⟩
  | green =>
    have hne := green0_ne_green1_of_patternSearch ho
    rw [windowCount_green hne]
    exact ⟨(hone o.green0).1.trans (Nat.le_add_right _ _), two_offsets_count_le hh hw hy hx hne⟩
  | blue =>
    rw [windowCount_of_populated_eq (populated_blue o)]
    exact ⟨(hone o.blue).1, (hone o.blue).2.trans (by decide)⟩

/-- Settles O30: the bounds of the count, and six samples of at most 65535 each (R225). -/
theorem maskIsNeverZeroInARealFrame : Obligations.MaskIsNeverZeroInARealFrame := by
  intro pat o plane h w y x c ho hh hw hy hx
  obtain ⟨hlo, hhi⟩ := windowCount_bounds ho hh hw hy hx c
  exact ⟨hlo, hhi, (windowSum_le plane h w o c y x).trans (Nat.mul_le_mul_right 65535 hhi)⟩

end Sys2Proof.Machine
end

