-- ==== Sys2Proof/Proofs/CommandLifetime.lean ====
section
/-! PROOF. The life of a command (47_host_control.md R250 to R255): a written START begins it, and it ends in one of
three ways, at the block's turn or by reset. That nothing else ends it follows from which steps write the status
registers: a step that keeps STATUS keeps BUSY. -/

namespace Sys2Proof.Machine

open Sys2Proof.Safety

/-! ### The write to CTRL -/

theorem startOf_ctrl_of_bit_set {data : Word} (h : data.getLsbD 0 = true) :
    startOf 6 data = some (.start (data.extractLsb' 1 31)) := by
  rw [startOf, ctrlOffset, if_pos rfl, decodeCtrl, if_pos h]
  rfl

theorem startOf_of_bit_clear {data : Word} (h : data.getLsbD 0 = false) (off : BitVec 4) : startOf off data = none := by
  rw [Option.eq_none_iff_forall_ne_some]
  intro i hstart
  obtain ⟨-, hset, -⟩ := startOf_eq_some hstart
  exact Bool.noConfusion (h.symm.trans hset)

/-- Settles O11: with bit 0 set the write is `exec_start_idle` or `exec_start_busy`; with bit 0 clear it is a write to
an offset without an operand register. -/
theorem startBeginsACommand : Obligations.StartBeginsACommand := by
  intro s data rest hin
  rw [step_cons hin]
  refine ⟨fun hset hb => ?_, fun hset hb => ?_, fun hclear => ?_⟩
  · rw [applyInput_start (startOf_ctrl_of_bit_set hset), exec_start_idle (s := { s with inputs := rest }) hb,
      State.beginCommand, statusBusy_eq]
    rfl
  · rw [applyInput_start (startOf_ctrl_of_bit_set hset), exec_start_busy (s := { s with inputs := rest }) hb]
  · rw [applyInput_regWrite (startOf_of_bit_clear hclear 6), State.regWrite_of_ignored (.inr (by decide))]

/-! ### How a command ends -/

/-- The codes of the four error kinds (R270). -/
theorem errorWord_cases (kind : ErrorKind) :
    errorWord kind = 1 ∨ errorWord kind = 2 ∨ errorWord kind = 3 ∨ errorWord kind = 4 := by
  cases kind with
  | unsupportedFormat => exact .inl rfl
  | unsupportedBitDepth => exact .inr (.inl rfl)
  | malformedMosaicPattern => exact .inr (.inr (.inl rfl))
  | geometryMismatch => exact .inr (.inr (.inr rfl))

/-- Settles O36: the three ways are those of `Ends`, less the two of START. -/
theorem commandsCompleteInThreeWays : Obligations.CommandsCompleteInThreeWays := by
  intro i s hi hparams
  obtain ⟨t, hexec, hends⟩ := exec_cases i s
  refine ⟨t, hexec, ?_⟩
  cases hends with
  | raster out _ _ hgeom =>
    obtain ⟨-, -, -, -, -, hdst⟩ := (geometryFails_eq_false_iff i s).1 hgeom
    exact ⟨State.complete_busy _ _ _ _,
      .inl ⟨s.completeRaster_status out, rfl, rfl, rfl, State.completeRaster_outLen out hparams hdst⟩⟩
  | compressed => exact ⟨State.complete_busy _ _ _ _, .inr (.inl ⟨statusDone_compressed, rfl, rfl, rfl, rfl⟩)⟩
  | failed kind =>
    exact ⟨State.raise_busy _ _ _, .inr (.inr ⟨statusDone_failed, errorWord_cases kind, rfl, rfl, rfl⟩)⟩
  | begun hctrl | dropped hctrl => rw [hi] at hctrl; exact CmdReg.noConfusion hctrl

theorem busy_eq_of_sameStatus {s t : State} (h : SameStatus s t) : t.busy = s.busy := by
  obtain ⟨hstatus, -⟩ := h
  rw [State.busy, State.busy, hstatus]

/-- The block's turn completes the command in flight (R254). -/
theorem pdcTurn_completes {s : State} (hb : s.busy = true) : ∃ t, pdcTurn s = .next t ∧ Completes s t := by
  obtain ⟨t, ht⟩ := exec_answers s.command s
  exact ⟨t, (pdcTurn_busy hb).trans ht, completes_of_exec ht⟩

/-- Settles O49: the first part by `statusChangesOnlyAtStartCompletionReset`, the second by `pdcTurn_completes`. -/
theorem commandsEndOnlyByCompletionOrReset : Obligations.CommandsEndOnlyByCompletionOrReset := by
  refine ⟨fun s t hb hstep hidle => ?_, fun s hb hturn => ?_⟩
  · have hchange : ¬SameStatus s t := fun h => by
      rw [busy_eq_of_sameStatus h, hb] at hidle
      exact Bool.noConfusion hidle
    rcases statusChangesOnlyAtStartCompletionReset s t hstep hchange with
      ⟨hnot, -⟩ | ⟨-, -, hdone, hturn⟩ | hreset
    · exact Bool.noConfusion (hb.symm.trans hnot)
    · exact .inl ⟨hdone, hturn⟩
    · exact .inr hreset
  · obtain ⟨t, ht, hcomp⟩ := pdcTurn_completes (s := s.advanced) hb
    refine ⟨t, ?_, hcomp.done⟩
    rw [step_eq, s.nextInput_eq_pdc_iff.2 hturn]
    exact ht

end Sys2Proof.Machine
end

