-- ==== Sys2Proof/Proofs/HostMemory.lean ====
section
/-! PROOF. Host memory as the host and other agents reach it (47_host_control.md R258; 70_reset_and_hazards.md R305,
R307): one equation for each way a byte access can be answered, and that a host that keeps its duties is always
answered. -/

namespace Sys2Proof.Machine

open Sys2Proof.Safety

/-! ### What a byte access answers -/

/-- The access is outside the destination range of a command in flight (R307). -/
def State.Accessible (s : State) (addr : Word) : Prop := s.busy = true → s.inDestination addr.toNat = false

theorem State.accessible_iff (s : State) (addr : Word) :
    s.Accessible addr ↔ ¬(s.busy && s.inDestination addr.toNat) = true := by
  rw [State.Accessible, Bool.and_eq_true, not_and, Bool.not_eq_true]

theorem hostMemWrite_accessible {s : State} {addr : Word} (haddr : addr.toNat < 2 ^ s.params.aw)
    (hacc : s.Accessible addr) (byte : Byte) :
    hostMemWrite addr byte s = .next { s with
      mem := Memory.write s.mem addr.toNat byte,
      srcDisturbed := s.srcDisturbed || (s.busy && s.inSource addr.toNat) } := by
  rw [hostMemWrite, if_neg (Nat.not_le.2 haddr), if_neg ((s.accessible_iff addr).1 hacc)]

theorem hostMemRead_accessible {s : State} {addr : Word} (haddr : addr.toNat < 2 ^ s.params.aw)
    (hacc : s.Accessible addr) :
    hostMemRead addr s = .next { s with hostData := BitVec.setWidth 32 (Memory.read s.mem addr.toNat) } := by
  rw [hostMemRead, if_neg (Nat.not_le.2 haddr), if_neg ((s.accessible_iff addr).1 hacc)]

/-- A read inside the destination range of a command in flight gives a free value (U7). -/
theorem hostMemRead_free {s : State} {addr : Word} (haddr : addr.toNat < 2 ^ s.params.aw)
    (hacc : ¬s.Accessible addr) :
    hostMemRead addr s = .next { s with
      hostData := BitVec.setWidth 32 (Config.freeByte s.freeCount addr.toNat), freeCount := s.freeCount + 1 } := by
  rw [State.accessible_iff, not_not] at hacc
  rw [hostMemRead, if_neg (Nat.not_le.2 haddr), if_pos hacc]

/-! ### The statements -/

/-- Settles O51: the write is `hostMemWrite_accessible`, and memory reads after it as `Memory.write` says. -/
theorem hostWritesReachMemory : Obligations.HostWritesReachMemory := by
  intro s addr byte rest hin hwf haddr hacc
  refine ⟨_, (step_cons hin).trans (hostMemWrite_accessible (s := { s with inputs := rest }) haddr hacc byte), ?_, ?_,
    fun _ => rfl, ?_⟩
  · exact Memory.read_write_same hwf _ _
  · exact fun a ha => Memory.read_write_other _ _ _ ha
  · exact (Bool.or_eq_true_iff).trans (or_congr_right (Bool.and_eq_true_iff))

/-- Settles O52: one case for each answer of a read. -/
theorem hostReadsSeeMemory : Obligations.HostReadsSeeMemory := by
  intro s addr rest hin haddr
  by_cases hacc : s.Accessible addr
  · refine ⟨_, (step_cons hin).trans (hostMemRead_accessible (s := { s with inputs := rest }) haddr hacc), ?_⟩
    exact ⟨rfl, fun _ => rfl, rfl, fun _ => ⟨rfl, rfl⟩⟩
  · refine ⟨_, (step_cons hin).trans (hostMemRead_free (s := { s with inputs := rest }) haddr hacc), ?_⟩
    exact ⟨rfl, fun _ => rfl, rfl, fun h => absurd h hacc⟩

/-- A memory write that keeps R305 and R307 is not into the destination range of a command in flight. -/
theorem dutifulInput_memWrite {s : State} {addr : Word} {byte : Byte}
    (h : dutifulInput s (.memWrite addr byte) = true) : s.Accessible addr := by
  intro hb
  simp only [dutifulInput, hb, Bool.true_and, Bool.not_eq_true', Bool.or_eq_false_iff] at h
  obtain ⟨-, hdst⟩ := h
  exact hdst

/-- Settles O54: the address space rules out the fault and R307 the refusal of `onlyTwoThingsStopTheMachine`. -/
theorem dutifulHostsNeverStopTheMachine : Obligations.DutifulHostsNeverStopTheMachine := by
  intro s hduty
  cases hstep : step s with
  | next t => exact ⟨t, rfl⟩
  | fault f =>
    obtain ⟨-, addr, rest, haddr, ⟨byte, hin⟩ | hin⟩ := (step_eq_fault_iff s f).1 hstep
    · obtain ⟨-, hspace⟩ := hduty _ _ hin
      exact absurd (hspace addr byte (.inl rfl)) (Nat.not_lt.2 haddr)
    · obtain ⟨-, hspace⟩ := hduty _ _ hin
      exact absurd (hspace addr 0 (.inr rfl)) (Nat.not_lt.2 haddr)
  | refused r =>
    obtain ⟨-, hb, addr, byte, rest, hin, -, hdst⟩ := (step_eq_refused_iff s r).1 hstep
    obtain ⟨hkept, -⟩ := hduty _ _ hin
    exact Bool.noConfusion (hdst.symm.trans (dutifulInput_memWrite hkept hb))

end Sys2Proof.Machine
end

