-- ==== Sys2Proof/Proofs/ErrorReport.lean ====
section
/-! PROOF. What a completed command reports (60_exceptions.md R270 to R277). The one idea: a FORMAT command is decided
before memory is read. Either it fails with one code from every state, or it passes the source buffer through, or the
geometry check decides it; the code it reports is then read off in the order of R275. -/

namespace Sys2Proof.Machine

open Sys2Proof.Safety

/-! ### What decides a command -/

/-- A raster command whose pattern fails raises MalformedMosaicPattern from every state (R206). -/
theorem exec_of_bad_pattern {i : Instr} {bpp : Nat} (hb : bytesPerPixel i = some bpp) (hp : patternOk i = false)
    (s : State) : exec i s = .next (failedWith 3 s) := by
  cases i with
  | decYuv422 | decRgb24 | decBgr24 | decArgb32 | decXrgb32 => cases hp
  | decBayer8 pat | decBayer10 pat | decBayer12 pat =>
    exact bayerCommand_of_bad_pattern (Option.not_isSome_iff_eq_none.1 (Bool.eq_false_iff.1 hp)) _ _ _ s
  | decMjpeg | decBayerBadBps bps pat | decUnrecognised tag | start ignored => cases hb

/-- The ways a FORMAT command is decided, none of which looks at memory (R120 steps 2 to 6). -/
theorem exec_decided {i : Instr} (hi : i.cmdReg = .format) :
    (∃ code, ∀ s, exec i s = .next (failedWith code s))
      ∨ (∀ s, exec i s = .next (s.complete .compressed s.srcAddr s.srcLen))
      ∨ ∃ bpp, bytesPerPixel i = some bpp ∧ patternOk i = true := by
  cases hb : bytesPerPixel i with
  | some bpp =>
    cases hp : patternOk i with
    | true => exact .inr (.inr ⟨bpp, rfl, rfl⟩)
    | false => exact .inl ⟨3, exec_of_bad_pattern hb hp⟩
  | none =>
    cases i with
    | decMjpeg => exact .inr (.inl exec_decMjpeg)
    | decBayerBadBps bps pat => exact .inl ⟨2, exec_decBayerBadBps bps pat⟩
    | decUnrecognised tag => exact .inl ⟨1, exec_decUnrecognised tag⟩
    | start ignored => cases hi
    | _ => cases hb

/-! ### The status registers and memory -/

/-- Host memory and the mark of a disturbed source replaced by any others. -/
def State.withMemory (s : State) (m : Memory) (disturbed : Bool) : State :=
  { s with mem := m, srcDisturbed := disturbed }

@[simp] theorem State.withMemory_dstAddr (s : State) (m : Memory) (disturbed : Bool) :
    (s.withMemory m disturbed).dstAddr = s.dstAddr := rfl

@[simp] theorem State.withMemory_rasterLength (s : State) (m : Memory) (disturbed : Bool) :
    (s.withMemory m disturbed).rasterLength = s.rasterLength := rfl

/-- The check reads operand registers and parameters alone (R124). -/
@[simp] theorem geometryFails_withMemory (i : Instr) (s : State) (m : Memory) (disturbed : Bool) :
    geometryFails i (s.withMemory m disturbed) = geometryFails i s := rfl

/-- The result registers of a raster hold the destination range, whatever its samples are (R253). -/
theorem State.completeRaster_sameStatus (s : State) (m : Memory) (disturbed : Bool)
    (out out' : Nat → Nat → Channel → Byte) :
    SameStatus (s.completeRaster out) ((s.withMemory m disturbed).completeRaster out') := by
  simp [SameStatus, State.completeRaster]

/-- Settles O39: each way of `exec_decided` leaves status registers that are no function of memory. -/
theorem statusDoesNotDependOnMemory : Obligations.StatusDoesNotDependOnMemory := by
  intro i s m disturbed hi
  change ∃ t t', exec i s = .next t ∧ exec i (s.withMemory m disturbed) = .next t' ∧ SameStatus t t'
  rcases exec_decided hi with ⟨code, hfail⟩ | hpass | ⟨bpp, hb, hp⟩
  · exact ⟨_, _, hfail s, hfail _, rfl, rfl, rfl, rfl, rfl⟩
  · exact ⟨_, _, hpass s, hpass _, rfl, rfl, rfl, rfl, rfl⟩
  · cases hg : geometryFails i s with
    | true => exact ⟨_, _, exec_of_misfit hb hp hg, exec_of_misfit hb hp hg, rfl, rfl, rfl, rfl, rfl⟩
    | false =>
      obtain ⟨out, hexec⟩ := exec_of_fit hb hp hg
      obtain ⟨out', hexec'⟩ := exec_of_fit hb hp ((geometryFails_withMemory i s m disturbed).trans hg)
      exact ⟨_, _, hexec, hexec', s.completeRaster_sameStatus m disturbed out out'⟩

/-! ### What a failure leaves -/

/-- ERR is set by the failed kind alone (R253). -/
@[simp] theorem State.complete_err (s : State) (kind : ResultKind) (addr len : Word) :
    (s.complete kind addr len).err = (kind == .failed) := by
  rw [State.err, State.complete_status]
  cases kind <;> rfl

/-- Settles O35: a pass-through and a raster end with ERR clear, and a failure is `raise` with one of four codes. -/
theorem failureChangesOnlyTheStatusRegisters : Obligations.FailureChangesOnlyTheStatusRegisters := by
  intro i s t hi hexec herr
  cases ends_of_exec hexec with
  | failed kind =>
    rw [raise_eq_failedWith]
    rcases errorWord_cases kind with hcode | hcode | hcode | hcode <;> simp [hcode]
  | compressed => rw [State.complete_err] at herr; cases herr
  | raster out => rw [State.completeRaster, State.complete_err] at herr; cases herr
  | begun hctrl | dropped hctrl => rw [hi] at hctrl; cases hctrl

/-! ### The order of the errors -/

/-- The code of the first error in the order of R275 that applies to FORMAT and the operands, 0 when none does. -/
def firstError (s : State) : Word :=
  if recognisedTag s.format = false then 1
  else if familyOf s.format = 7 ∧ legalBps (bpsOf s.format) = false then 2
  else if familyOf s.format = 7 ∧ patternSearch (patternOf s.format) = none then 3
  else if s.format ≠ 6 ∧ geometryFails s.command s = true then 4
  else 0

/-- The command in flight completes and reports `code`. -/
def Reports (s : State) (code : Word) : Prop := ∃ t, exec s.command s = .next t ∧ t.error = code

theorem familyOf_bayerTag (bps : BitVec 8) (pat : Pattern) : familyOf (bayerTag bps pat) = 7 := by
  have hlow : familyOf (bayerTag bps pat) = ((bayerTag bps pat).extractLsb' 0 8).extractLsb' 0 4 := by
    rw [familyOf, BitVec.extractLsb'_extractLsb'_of_le (by omega)]
  rw [hlow, bayerTag, extract_low_byte]
  rfl

theorem bpsOf_bayerTag (bps : BitVec 8) (pat : Pattern) : bpsOf (bayerTag bps pat) = bps := bpsOf_bytes ..

theorem patternOf_bayerTag (bps : BitVec 8) (pat : Pattern) : patternOf (bayerTag bps pat) = pat := by
  rw [bayerTag, patternOf_bytes, patternOfByte_patternByte]

/-- Past the pattern search the geometry check decides the code (R275). -/
theorem reports_of_raster {s : State} {i : Instr} {bpp : Nat} (hcmd : s.command = i)
    (hb : bytesPerPixel i = some bpp) (hp : patternOk i = true) :
    Reports s (if geometryFails s.command s = true then 4 else 0) := by
  subst hcmd
  cases hg : geometryFails s.command s with
  | true => exact ⟨_, exec_of_misfit hb hp hg, rfl⟩
  | false =>
    obtain ⟨out, hexec⟩ := exec_of_fit hb hp hg
    exact ⟨_, hexec, rfl⟩

/-! ### The order of the errors, for each kind of tag -/

theorem reports_firstError_of_unrecognised {s : State} (hrec : recognisedTag s.format = false) :
    Reports s (firstError s) := by
  have hcmd : s.command = .decUnrecognised s.format := (decodeFormat_unrecognised_iff s.format).2 hrec
  rw [Reports, firstError, if_pos hrec, hcmd]
  exact ⟨_, exec_decUnrecognised _ s, rfl⟩

/-- A simple tag has no depth and no pattern, so that only the geometry can fail, and MJPEG has none of that either. -/
theorem firstError_of_simple {s : State} (hrec : recognisedTag s.format = true) (hfamily : familyOf s.format ≠ 7) :
    firstError s = if s.format ≠ 6 ∧ geometryFails s.command s = true then 4 else 0 := by
  rw [firstError, hrec, if_neg Bool.noConfusion, if_neg fun h => hfamily h.1, if_neg fun h => hfamily h.1]

theorem reports_firstError_of_mjpeg {s : State} (htag : s.format = 6) (hcmd : s.command = .decMjpeg) :
    Reports s (firstError s) := by
  rw [firstError_of_simple (by rw [htag]; decide) (by rw [htag]; decide), if_neg fun h => h.1 htag, Reports, hcmd]
  exact ⟨_, exec_decMjpeg s, rfl⟩

/-- The tags 1 to 5. -/
theorem reports_firstError_of_simple_raster {s : State} {tag : Word} (htag : s.format = tag)
    (hsimple : recognisedTag tag = true ∧ familyOf tag ≠ 7 ∧ tag ≠ 6) {i : Instr} {bpp : Nat} (hcmd : s.command = i)
    (hb : bytesPerPixel i = some bpp) (hp : patternOk i = true) : Reports s (firstError s) := by
  subst htag
  obtain ⟨hrec, hfamily, hne⟩ := hsimple
  rw [firstError_of_simple hrec hfamily]
  simp only [hne, ne_eq, not_false_eq_true, true_and]
  exact reports_of_raster hcmd hb hp

/-- A Bayer tag's depth is looked at before its pattern, and its pattern before the geometry (R275). -/
theorem firstError_of_bayer {s : State} {bps : BitVec 8} {pat : Pattern} (htag : s.format = bayerTag bps pat) :
    firstError s = if legalBps bps = false then 2 else if patternSearch pat = none then 3
      else if geometryFails s.command s = true then 4 else 0 := by
  have hne : bayerTag bps pat ≠ 6 := fun h => by
    have hfamily := familyOf_bayerTag bps pat
    rw [h] at hfamily
    exact absurd hfamily (by decide)
  rw [firstError, htag, recognisedTag_bayerTag, familyOf_bayerTag, bpsOf_bayerTag, patternOf_bayerTag,
    if_neg Bool.noConfusion]
  simp only [hne, ne_eq, not_false_eq_true, true_and]

theorem reports_firstError_of_illegal_depth {s : State} {bps : BitVec 8} {pat : Pattern}
    (htag : s.format = bayerTag bps pat) (hcmd : s.command = .decBayerBadBps bps pat) (hbps : legalBps bps = false) :
    Reports s (firstError s) := by
  rw [firstError_of_bayer htag, if_pos hbps, Reports, hcmd]
  exact ⟨_, exec_decBayerBadBps bps pat s, rfl⟩

theorem reports_firstError_of_legal_depth {s : State} {bps : BitVec 8} {pat : Pattern}
    (htag : s.format = bayerTag bps pat) (hbps : legalBps bps = true) {i : Instr} {bpp : Nat} (hcmd : s.command = i)
    (hb : bytesPerPixel i = some bpp) (hp : patternOk i = (patternSearch pat).isSome) :
    Reports s (firstError s) := by
  rw [firstError_of_bayer htag, hbps, if_neg Bool.noConfusion]
  cases hpat : patternSearch pat with
  | none =>
    rw [hpat] at hp
    subst hcmd
    exact ⟨_, exec_of_bad_pattern hb hp s, rfl⟩
  | some o =>
    rw [hpat] at hp
    rw [if_neg nofun]
    exact reports_of_raster hcmd hb hp

theorem reports_firstError_of_bayer {s : State} {bps : BitVec 8} {pat : Pattern}
    (htag : s.format = bayerTag bps pat) : Reports s (firstError s) := by
  have hcmd : s.command = _ := (congrArg decodeFormat htag).trans (decodeFormat_bayerTag bps pat)
  cases hbps : legalBps bps with
  | true =>
    rcases (legalBps_iff bps).1 hbps with rfl | rfl | rfl
    all_goals exact reports_firstError_of_legal_depth htag hbps hcmd rfl rfl
  | false =>
    have hdepth := (legalBps_iff bps).not.1 (Bool.eq_false_iff.1 hbps)
    simp only [not_or] at hdepth
    obtain ⟨h8, h10, h12⟩ := hdepth
    rw [if_neg h8, if_neg h10, if_neg h12] at hcmd
    exact reports_firstError_of_illegal_depth htag hcmd hbps

/-- Settles O34: one case for each kind of tag of `decodeFormat_cases`. -/
theorem errorPriority : Obligations.ErrorPriority := by
  intro s
  change Reports s (firstError s)
  rcases decodeFormat_cases s.format with ⟨htag, hcmd⟩ | ⟨htag, hcmd⟩ | ⟨htag, hcmd⟩ | ⟨htag, hcmd⟩ | ⟨htag, hcmd⟩
    | ⟨htag, hcmd⟩ | ⟨bps, pat, htag⟩ | ⟨hrec, -⟩
  · exact reports_firstError_of_simple_raster htag (by decide) hcmd rfl rfl
  · exact reports_firstError_of_simple_raster htag (by decide) hcmd rfl rfl
  · exact reports_firstError_of_simple_raster htag (by decide) hcmd rfl rfl
  · exact reports_firstError_of_simple_raster htag (by decide) hcmd rfl rfl
  · exact reports_firstError_of_simple_raster htag (by decide) hcmd rfl rfl
  · exact reports_firstError_of_mjpeg htag hcmd
  · exact reports_firstError_of_bayer htag
  · exact reports_firstError_of_unrecognised hrec

end Sys2Proof.Machine
end

