-- ==== Sys2Proof/Proofs/IdleBlock.lean ====
section
/-! PROOF. An idle block's turn (60_exceptions.md R292): the turn is `pdcTurn`, which keeps the state while BUSY = 0. -/

namespace Sys2Proof.Machine

/-- Settles O9: both ways the turn arises end in `pdcTurn_idle`, and the input taken is no part of BUSY. -/
theorem idleBlockKeepsItsState : Obligations.IdleBlockKeepsItsState := by
  intro s hidle
  refine ⟨fun hin => ?_, fun rest hin => ?_⟩
  · rw [step_nil hin, pdcTurn_idle hidle]
  · rw [step_cons hin, applyInput, pdcTurn_idle (by rwa [State.busy_inputs])]

end Sys2Proof.Machine
end
